-- ==== Sys2Proof/Word.lean ====
section
/-! DEFINITION. The widths the spec fixes (rule R8): an input symbol is one bit, a length field and
a payload byte are 8 bits, the CRC register, trailer and polynomial are 16 bits. -/

namespace Sys2Proof

/-- One hard bit decision, "interpreted as boolean 0/1" (R78); also one cell of the payload buffer
(R50). `true` is 1. -/
abbrev Bit := Bool

/-- An 8-bit quantity: the length field, a payload byte, the bound `MAX_LEN` (R8, R29). -/
abbrev Byte := BitVec 8

/-- A 16-bit quantity: the CRC register, the CRC trailer, the polynomial (R8). -/
abbrev Word := BitVec 16

end Sys2Proof
end

