-- ==== Sys2Proof/Config.lean ====
section
/-! DEFINITION. The configuration `cfg` of one deframer core (R6, R29): six static strap inputs, and
the one value the spec leaves unspecified while the machine goes on. -/

namespace Sys2Proof

/-- The six parameters of R6. They are not mutable state (R20, R32): `State` carries them so that a
step needs no second argument and every statement is about every configuration; no operation writes
them (R29). Which values are legal is `Config.legal` (R253). -/
structure Config where
  /-- `W`, the sync width in bits. Any natural number can be written here; `W >= 1` is legal. -/
  w : Nat
  /-- `SYNC_PATTERN`, unsigned; legal below `2^W`. -/
  syncPattern : Nat
  /-- `HAS_CRC`: a 16-bit trailer follows the payload. -/
  hasCrc : Bool
  /-- `CHECK_CRC`: the trailer is to be verified. -/
  checkCrc : Bool
  /-- `CRC_POLY[15:0]`; every value is legal. -/
  crcPoly : Word
  /-- `MAX_LEN[7:0]`, the largest length admitted (decision D6). -/
  maxLen : Byte
  deriving DecidableEq, Repr

/-- The configuration of the one machine `State.reset` stands for. `W = 16`, `CRC_POLY = 0x8005` and
`MAX_LEN = 255` are the spec's defaults (R6, R251). DESIGN CHOICE (log entry 2): `SYNC_PATTERN`,
`HAS_CRC` and `CHECK_CRC` have no default in the spec; the three values here are those of the spec's
Scenario A. No statement rests on them: every statement quantifies over the configuration. -/
def Config.atReset : Config :=
  { w := 16, syncPattern := 0xD391, hasCrc := false, checkCrc := false,
    crcPoly := 0x8005#16, maxLen := 255#8 }

/-- FREE VALUE (log entry 5). What the register `CRC` holds after a step in which the CRC engine ran:
"its value between steps is unspecified and no rule reads it" (R26, U5). The argument is the count of
such steps so far. No body: nothing can be proved of a value of it. -/
opaque Config.freeCrc : Nat → Word

end Sys2Proof
end

