-- ==== Sys2Proof/Syntax.lean ====
section
/-! DEFINITION. The thirteen operations of R80, one constructor per row of the opcode table. -/

namespace Sys2Proof

/-- One operation of the block: a named case of the step function (R13, R80). The operand, where the
rule gives one, is the input bit `b` (bit 0 of the selector word); the other selector bits a row does
not fix are ignored by it and are no operands (R80). -/
inductive Instr where
  /-- RESET: return to the reset state (R202). -/
  | reset
  /-- HOLD: no new bit, nothing changes (R203). -/
  | hold
  /-- SRCH.SHIFT: searching, the window does not match (R102). -/
  | srchShift (b : Bit)
  /-- SRCH.SYNC: searching, the window matches (R103). -/
  | srchSync (b : Bit)
  /-- LEN.SHIFT: length bit 1 to 7 (R121). -/
  | lenShift (b : Bit)
  /-- LEN.OPEN: length bit 8, a buffer of size above 0 is opened (R122). -/
  | lenOpen (b : Bit)
  /-- LEN.EMPTY: length bit 8, size 0, the empty packet completes (R123). -/
  | lenEmpty (b : Bit)
  /-- LEN.OVF: length bit 8, length above `MAX_LEN` (R124). -/
  | lenOvf (b : Bit)
  /-- PAY.STORE: a buffer bit that is not the last (R140). -/
  | payStore (b : Bit)
  /-- PAY.EMIT: last buffer bit, no verification (R183). -/
  | payEmit (b : Bit)
  /-- PAY.PASS: last buffer bit, the CRC matches (R184). -/
  | payPass (b : Bit)
  /-- PAY.DROP: last buffer bit, the CRC does not match (R185). -/
  | payDrop (b : Bit)
  /-- ILLEGAL: `ST = 0b11`, unreachable, no semantics (R89). -/
  | illegal
  deriving DecidableEq, Repr

end Sys2Proof
end

