-- ==== Sys2Proof/Machine/State.lean ====
section
/-! DEFINITION. The state of one deframer core (R20), the input of a step (R78), the output events
(R81), and the ways a step can stop. -/

namespace Sys2Proof.Machine

/-- The input of one step, `in = (rst, vld, b)` (R78). -/
structure StepInput where
  /-- 1 asks for a reset. -/
  rst : Bit
  /-- 1 says `b` is a new input bit. -/
  vld : Bit
  /-- the input bit. -/
  b : Bit
  deriving DecidableEq, Repr

/-- An output event, the abstract record of R81. -/
inductive Event where
  /-- `PACKET(len, payload)`, kind 0. -/
  | packet (len : Byte) (payload : List Byte)
  /-- `CRC_MISMATCH(len, computed, received)`, kind 1 (R220). -/
  | crcMismatch (len : Byte) (computed received : Word)
  /-- `ALLOC_FAIL(len)`, kind 2 (R221). -/
  | allocFail (len : Byte)
  deriving DecidableEq, Repr

/-- The payload buffer `BUF` (R50): the written cells as (bit index, bit) pairs, indices strictly
rising; the addressable unit is the bit (DESIGN CHOICE, log entry 21). A cell that is not listed has
never been written and has no value (DESIGN CHOICE, log entry 4). -/
abbrev Memory := List (Nat × Bit)

/-- Why the machine stops with a fault. The hardware has no access fault (R54, R223); both are raised
only in states that no run from reset reaches (R34), and stopping there is safe. -/
inductive Fault where
  /-- An access to `BUF[i]` with `i >= CAP`: the buffer has `8*MAX_LEN + 16` cells (R50). Raised by
  the four PAY operations and, before them, by the CRC verdict of the selector. Safe. -/
  | noSuchCell (i : Nat)
  /-- The packer reads `BUF[i]`, a cell nothing has written since reset, whose content the spec leaves
  unspecified (R55). Raised by PAY.EMIT, PAY.PASS, PAY.DROP and, before them, by the CRC verdict of
  the selector. Safe. -/
  | unwrittenCell (i : Nat)
  deriving DecidableEq, Repr

/-- Why there is no meaning for a step. -/
inductive Refusal where
  /-- The operation has no meaning in the model yet. Raised by no arm of `exec`. Safe. -/
  | notModelled (mnemonic : String)
  /-- `ST = 0b11`: "no semantics", "refuses the step" (R89; log entry 15). Raised by ILLEGAL. Safe. -/
  | illegalState
  /-- A configuration outside the legal ranges: "a model refuses the configuration" (R253; log
  entry 14). Raised by the step, before it selects an operation. Safe. -/
  | illegalConfig
  /-- A selector word of no row of the table (R83; log entry 16). Raised by the step; no selector
  word is such a word. Safe. -/
  | noSelectorRow (w : BitVec 8)
  /-- "If `HAS_CRC = 0` ... there is no `recv`" (R181): PAY.PASS and PAY.DROP have no meaning then
  (log entry 12). Raised by them; no step selects them without a trailer. Safe. -/
  | noTrailer
  deriving DecidableEq, Repr

/-- The state of one machine. The first six fields are the state registers of R20. `cfg` is the strap
configuration, constant in every run (R29; log entry 1). The last four are the MODEL's own: the count
that the free CRC value is applied to, and the two sides of the host interface (R78, R180; log entry
10). -/
structure State where
  /-- `ST`, 2 bits: `SEARCHING = 0b00`, `READING_LENGTH = 0b01`, `READING_PAYLOAD = 0b10` (R21). -/
  st : BitVec 2
  /-- `SR`, `max(W, 8)` bits, held as the unsigned value; writes truncate to that width (R23;
  log entry 6). -/
  sr : Nat
  /-- `IDX`, 12 bits (R24; log entry 22). -/
  idx : BitVec 12
  /-- `LEN`, 8 bits (R25). -/
  len : Byte
  /-- `BUF`, `8*MAX_LEN + 16` one-bit cells (R27, R50). -/
  buf : Memory
  /-- `CRC`, 16 bits, transient: unspecified between steps (R26). -/
  crc : Word
  /-- The configuration `cfg` (R6). -/
  cfg : Config
  /-- MODEL: how many times the CRC engine has run; the argument of `Config.freeCrc`. -/
  crcRuns : Nat
  /-- MODEL: the inputs the host will present, the next one first; when it is empty the host presents
  nothing and the step is HOLD (R203, R208). -/
  pending : List StepInput
  /-- MODEL: the output of the last step, `none` or one event (R11, R180). -/
  out : Option Event
  /-- MODEL: the events the sink has taken since reset, oldest first (the ghost list of R32). -/
  sink : List Event
  deriving DecidableEq, Repr

/-- The machine right after reset (R33, R250): `ST = SEARCHING`, `SR = 0`, `IDX = 0`. DESIGN CHOICE
(log entry 3): `LEN` and `CRC` are unspecified after reset and hold 0 here. No cell of `BUF` has been
written (log entry 4). The straps are `Config.atReset` (log entry 2). -/
def State.reset : State :=
  { st := 0b00#2, sr := 0, idx := 0#12, len := 0#8, buf := [], crc := 0#16,
    cfg := Config.atReset, crcRuns := 0, pending := [], out := none, sink := [] }

end Sys2Proof.Machine
end

