-- ==== Sys2Proof/Machine/Crc.lean ====
section
/-! DEFINITION. The CRC-16 engine (43_crc_engine.md): three pure functions, MSB first, not reflected,
no final XOR. -/

namespace Sys2Proof.Machine

/-- CRC16.BIT, the one-bit update (R161). -/
def crcBit (reg : Word) (d : Bit) (poly : Word) : Word :=
  if xor (reg.getLsbD 15) d then (reg <<< 1) ^^^ poly else reg <<< 1

/-- `bits_8(x)` (R9): the bits of a byte, most significant first. -/
def byteBits (x : Byte) : List Bit :=
  [x.getLsbD 7, x.getLsbD 6, x.getLsbD 5, x.getLsbD 4,
   x.getLsbD 3, x.getLsbD 2, x.getLsbD 1, x.getLsbD 0]

/-- CRC16.BYTE, the one-byte update: bit 7 first, bit 0 last, each once (R162, decision D3). -/
def crcByte (reg : Word) (x : Byte) (poly : Word) : Word :=
  (byteBits x).foldl (fun r d => crcBit r d poly) reg

/-- The value every CRC computation starts from (R160). -/
def crcInit : Word := 0xFFFF#16

/-- CRC16, the message function (R163). -/
def crc16 (msg : List Byte) (poly : Word) : Word :=
  msg.foldl (fun r x => crcByte r x poly) crcInit

end Sys2Proof.Machine
end

