-- ==== Sys2Proof/Machine/Ops.lean ====
section
/-! DEFINITION. The named operations over the registers, the payload buffer and the output, among them
the one operation that takes an exception. -/

namespace Sys2Proof.Machine

/-- `SEARCHING` (R21). -/
abbrev stSearching : BitVec 2 := 0b00#2
/-- `READING_LENGTH` (R21). -/
abbrev stReadingLength : BitVec 2 := 0b01#2
/-- `READING_PAYLOAD` (R21). -/
abbrev stReadingPayload : BitVec 2 := 0b10#2
/-- `0b11`, "never produced by any operation" and illegal (R21, R89). -/
abbrev stIllegal : BitVec 2 := 0b11#2

/-- `nbits(L) = 8*L + (16 if HAS_CRC = 1 else 0)`, the bits the packet of length `L` takes (R7). -/
def nbits (c : Config) (l : Byte) : Nat := 8 * l.toNat + if c.hasCrc then 16 else 0

/-- `nbytes(L) = nbits(L) / 8` (R7). -/
def nbytes (c : Config) (l : Byte) : Nat := nbits c l / 8

/-- `mask_W = 2^W - 1` (R7). -/
def maskW (c : Config) : Nat := 2 ^ c.w - 1

/-- `verify_en = HAS_CRC AND CHECK_CRC` (R7, decision D5). -/
def verifyEn (c : Config) : Bool := c.hasCrc && c.checkCrc

/-- `CAP = 8*MAX_LEN + 16`, the cells the buffer has (R50). -/
def bufCap (c : Config) : Nat := 8 * c.maxLen.toNat + 16

/-- The physical width of `SR`, `max(W, 8)` bits (R23, decision D2). -/
def srWidth (c : Config) : Nat := max c.w 8

/-- The bit the buffer holds in cell `a`; `none` where nothing has been written. -/
def Memory.read : Memory → Nat → Option Bit
  | [], _ => none
  | (k, x) :: m, a => if k = a then some x else Memory.read m a

/-- Write one cell, keeping the indices strictly rising. -/
def Memory.write : Memory → Nat → Bit → Memory
  | [], a, v => [(a, v)]
  | (k, x) :: m, a, v =>
    if a < k then (a, v) :: (k, x) :: m
    else if a = k then (a, v) :: m
    else (k, x) :: Memory.write m a v

/-- Every index of `m` is above `lo`, and they rise strictly. -/
def Memory.risesFrom : Nat → Memory → Bool
  | _, [] => true
  | lo, (k, _) :: m => decide (lo ≤ k) && Memory.risesFrom (k + 1) m

/-- The canonical form: indices strictly rising. (An unlisted cell has no value, so no entry can equal
what an unlisted cell reads as.) -/
def Memory.wf (m : Memory) : Bool := Memory.risesFrom 0 m

/-- `MemWrite(i, 1, v)`: `BUF[i] <- v` (R10, R52). A cell at or above `CAP` does not exist (R50). -/
def State.memWrite (s : State) (i : Nat) (v : Bit) : Except Fault State :=
  if i < bufCap s.cfg then .ok { s with buf := Memory.write s.buf i v } else .error (.noSuchCell i)

/-- `MemRead(i, 1)` (R10, R52). Reading has no side effect (R56). -/
def State.memRead (s : State) (i : Nat) : Except Fault Bit :=
  if i < bufCap s.cfg then
    match Memory.read s.buf i with
    | some v => .ok v
    | none => .error (.unwrittenCell i)
  else .error (.noSuchCell i)

/-- The cells `i, i+1, ..., i+n-1`, in order. -/
def State.memReadFrom (s : State) (i : Nat) : Nat → Except Fault (List Bit)
  | 0 => .ok []
  | n + 1 =>
    match s.memRead i with
    | .error f => .error f
    | .ok v =>
      match s.memReadFrom (i + 1) n with
      | .error f => .error f
      | .ok vs => .ok (v :: vs)

/-- `SR <- v`, truncated to the register's `max(W, 8)` bits (R23). In every state a run from reset
reaches, `v` already fits (R34, R209). -/
def State.setSr (s : State) (v : Nat) : State := { s with sr := v % 2 ^ srWidth s.cfg }

/-- The output of the step is `none` (R11, R180). -/
def State.quiet (s : State) : State := { s with out := none }

/-- `emit E`: the event is the output of this step and the sink takes it in this step (R10, R180,
R257; log entry 17). -/
def State.emit (s : State) (e : Event) : State := { s with out := some e, sink := s.sink ++ [e] }

/-- The return to a fresh search: `SR <- 0`, `IDX <- 0`, `ST <- SEARCHING` (R186, R226). -/
def State.freshSearch (s : State) : State := { s with sr := 0, idx := 0#12, st := stSearching }

/-- `raise K(info)`, TAKING AN EXCEPTION: the diagnostic event is output with its recorded values and
the block returns to SEARCHING in the same step; nothing is saved, and there is no return operation
(R10, R226, R227). -/
def State.raise (s : State) (e : Event) : State := (s.emit e).freshSearch

/-- The CRC engine has run in this step: what `CRC` holds afterwards is unspecified (R26), so it is
the free value. -/
def State.crcEngineRan (s : State) : State :=
  { s with crc := Config.freeCrc s.crcRuns, crcRuns := s.crcRuns + 1 }

end Sys2Proof.Machine
end

