-- ==== Sys2Proof/Machine/Operands.lean ====
section
/-! DEFINITION. The operand values the operations share: the input of the step, the shifted register,
the length field, the packed bytes of a completion and their split. -/

namespace Sys2Proof.Machine

/-- The input of a step in which the host presents nothing (R203, R208). -/
def StepInput.nothing : StepInput := ⟨false, false, false⟩

/-- The input of a step that presents the bit `b` (R206). -/
def StepInput.ofBit (b : Bit) : StepInput := ⟨false, true, b⟩

/-- The input of the next step: the next one the host presents, or nothing. -/
def State.nextInput (s : State) : StepInput := s.pending.headD StepInput.nothing

/-- The input has been taken from the port; nothing else changes. -/
def State.takeInput (s : State) : State := { s with pending := s.pending.tail }

/-- `r' = ((SR << 1) & mask_W) | b`, the window after the shift (R100). -/
def State.window (s : State) (b : Bit) : Nat := ((s.sr <<< 1) &&& maskW s.cfg) ||| b.toNat

/-- `r' = (SR << 1) | b`, with no mask (R120). -/
def State.lenShifted (s : State) (b : Bit) : Nat := (s.sr <<< 1) ||| b.toNat

/-- `L = r'[7:0]`, the length field once its eighth bit is in (R120, R79). -/
def State.lenField (s : State) (b : Bit) : Byte := BitVec.ofNat 8 (s.lenShifted b)

/-- One byte from its eight bits, the earliest received the most significant (R141, R57). -/
def packByte (b7 b6 b5 b4 b3 b2 b1 b0 : Bit) : Byte :=
  BitVec.ofNat 8 (b7.toNat * 128 + b6.toNat * 64 + b5.toNat * 32 + b4.toNat * 16
    + b3.toNat * 8 + b2.toNat * 4 + b1.toNat * 2 + b0.toNat)

/-- `PACK` (R141): eight bits a byte. The lengths it is applied to are multiples of 8 (R58); bits that
fill no byte are not packed. -/
def pack : List Bit → List Byte
  | b7 :: b6 :: b5 :: b4 :: b3 :: b2 :: b1 :: b0 :: q => packByte b7 b6 b5 b4 b3 b2 b1 b0 :: pack q
  | _ => []

/-- The completion computation (R142): the input bit is stored, then the whole allocated buffer, that
bit included, is packed. -/
def State.completion (s : State) (b : Bit) : Except Fault (State × List Byte) :=
  match s.memWrite s.idx.toNat b with
  | .error f => .error f
  | .ok t =>
    match t.memReadFrom 0 (nbits s.cfg s.len) with
    | .error f => .error f
    | .ok q => .ok (t, pack q)

/-- The payload among the packed bytes (R181): without the trailer if there is one, else all. -/
def payloadOf (c : Config) (l : Byte) (packed : List Byte) : List Byte :=
  if c.hasCrc then packed.take l.toNat else packed

/-- `recv = packed[LEN]*256 + packed[LEN+1]`, the big-endian received CRC; `none` when the frame has
no trailer (R181). -/
def recvOf (c : Config) (l : Byte) (packed : List Byte) : Option Word :=
  if c.hasCrc then
    match packed.drop l.toNat with
    | hi :: lo :: _ => some (hi ++ lo)
    | _ => none
  else none

/-- `calc = CRC16([LEN] ++ payload, CRC_POLY)` (R182, R76). -/
def calcOf (c : Config) (l : Byte) (packed : List Byte) : Word :=
  crc16 (l :: payloadOf c l packed) c.crcPoly

end Sys2Proof.Machine
end

