-- ==== Sys2Proof/Machine/Accumulator.lean ====
section
/-! DEFINITION. The bit-to-byte accumulator: PAY.STORE (42_payload_accumulator.md). The condition under
which a step performs it is the selector's (R79, R80; log entry 11). -/

namespace Sys2Proof.Machine

/-- PAY.STORE (R140): `BUF[IDX] <- b; IDX <- IDX + 1`. -/
def execPayStore (b : Bit) (s : State) : Host.Outcome State Fault Refusal :=
  match s.quiet.memWrite s.idx.toNat b with
  | .error f => .fault f
  | .ok t => .next { t with idx := s.idx + 1#12 }

end Sys2Proof.Machine
end

