-- ==== Sys2Proof/Machine/Arbiter.lean ====
section
/-! DEFINITION. The packet-valid output arbiter: PAY.EMIT, PAY.PASS, PAY.DROP, and the port view of an
event (44_output_arbiter.md; R81, R82). A meaning is the operation's pseudocode; the condition under
which a step performs it (the verdict among them) is the selector's (R79, R80; log entry 11). -/

namespace Sys2Proof.Machine

/-- PAY.EMIT (R183): store, pack, split, `emit PACKET(len = LEN, payload)`, fresh search. No CRC is
computed. -/
def execPayEmit (b : Bit) (s : State) : Host.Outcome State Fault Refusal :=
  match s.completion b with
  | .error f => .fault f
  | .ok (t, packed) => .next (t.emit (.packet s.len (payloadOf s.cfg s.len packed))).freshSearch

/-- PAY.PASS (R184): as PAY.EMIT, with the CRC engine run; the CRC values are not part of the event. -/
def execPayPass (b : Bit) (s : State) : Host.Outcome State Fault Refusal :=
  match s.completion b with
  | .error f => .fault f
  | .ok (t, packed) =>
    match recvOf s.cfg s.len packed with
    | none => .refused .noTrailer
    | some _ =>
      .next (t.crcEngineRan.emit (.packet s.len (payloadOf s.cfg s.len packed))).freshSearch

/-- PAY.DROP (R185): `raise CRC_MISMATCH(len = LEN, computed = calc, received = recv)`, the exception of
cause code 1 (R220); no payload byte is output. -/
def execPayDrop (b : Bit) (s : State) : Host.Outcome State Fault Refusal :=
  match s.completion b with
  | .error f => .fault f
  | .ok (t, packed) =>
    match recvOf s.cfg s.len packed with
    | none => .refused .noTrailer
    | some recv =>
      .next (t.crcEngineRan.raise (.crcMismatch s.len (calcOf s.cfg s.len packed) recv))

/-- `ev_kind[1:0]`: PACKET 0, CRC_MISMATCH 1, ALLOC_FAIL 2; kind 3 is never produced (R81). -/
def Event.kind : Event → BitVec 2
  | .packet .. => 0#2
  | .crcMismatch .. => 1#2
  | .allocFail .. => 2#2

/-- `ev_ok`, 1 iff the kind is 0 (R81, R82). -/
def Event.ok (e : Event) : Bit := e.kind == 0#2

/-- `ev_len[7:0]`, the byte length (R81). -/
def Event.len : Event → Byte
  | .packet l _ => l
  | .crcMismatch l _ _ => l
  | .allocFail l => l

/-- `ev_data[k]`: the payload bytes of a PACKET. Every other byte of the port is unspecified (R82) and
is absent from the record. -/
def Event.data : Event → Nat → Option Byte
  | .packet _ payload, k => payload[k]?
  | .crcMismatch .., _ => none
  | .allocFail .., _ => none

/-- `ev_crc_calc[15:0]` and `ev_crc_recv[15:0]`, meaningful only for kind 1 (R82). -/
def Event.crcs : Event → Option (Word × Word)
  | .crcMismatch _ computed received => some (computed, received)
  | .packet .. => none
  | .allocFail .. => none

/-- `ev_valid`: 1 in a step that outputs an event (R82). -/
def State.evValid (s : State) : Bit := s.out.isSome

end Sys2Proof.Machine
end

