-- ==== Sys2Proof/Machine/LengthDecoder.lean ====
section
/-! DEFINITION. The length decoder: LEN.SHIFT, LEN.OPEN, LEN.EMPTY, LEN.OVF (41_length_decoder.md). A
meaning is the operation's pseudocode; the condition under which a step performs it is the selector's
(R79, R80; log entry 11). -/

namespace Sys2Proof.Machine

/-- LEN.SHIFT (R121): `SR <- r'; IDX <- IDX + 1`. -/
def execLenShift (b : Bit) (s : State) : Host.Outcome State Fault Refusal :=
  .next { s.quiet.setSr (s.lenShifted b) with idx := s.idx + 1#12 }

/-- LEN.OPEN (R122): `LEN <- L; SR <- r'; IDX <- 0; ST <- READING_PAYLOAD`; no cell is written. -/
def execLenOpen (b : Bit) (s : State) : Host.Outcome State Fault Refusal :=
  .next { s.quiet.setSr (s.lenShifted b) with
          len := s.lenField b, idx := 0#12, st := stReadingPayload }

/-- LEN.EMPTY (R123): `LEN <- 0; emit PACKET(len = 0, payload = []); SR <- 0; IDX <- 0;
ST <- SEARCHING`. `BUF` is not touched. -/
def execLenEmpty (_b : Bit) (s : State) : Host.Outcome State Fault Refusal :=
  .next ({ s with len := 0#8 }.emit (.packet 0#8 [])).freshSearch

/-- LEN.OVF (R124): `LEN <- L; raise ALLOC_FAIL(len = L)`, the exception of cause code 2 (R221). -/
def execLenOvf (b : Bit) (s : State) : Host.Outcome State Fault Refusal :=
  .next ({ s with len := s.lenField b }.raise (.allocFail (s.lenField b)))

end Sys2Proof.Machine
end

