-- ==== Sys2Proof/Machine/Synchronizer.lean ====
section
/-! DEFINITION. The bit synchronizer: SRCH.SHIFT and SRCH.SYNC (40_bit_synchronizer.md). A meaning is
the operation's pseudocode; the condition under which a step performs it is the selector's (R79, R80; log entry 11). -/

namespace Sys2Proof.Machine

/-- SRCH.SHIFT (R102): `SR <- r'`. -/
def execSrchShift (b : Bit) (s : State) : Host.Outcome State Fault Refusal :=
  .next (s.quiet.setSr (s.window b))

/-- SRCH.SYNC (R103): `SR <- 0; IDX <- 0; ST <- READING_LENGTH`. The matching bit is consumed by the
comparison and is kept nowhere. -/
def execSrchSync (_b : Bit) (s : State) : Host.Outcome State Fault Refusal :=
  .next { s.quiet with sr := 0, idx := 0#12, st := stReadingLength }

end Sys2Proof.Machine
end

