-- ==== Sys2Proof/Machine/System.lean ====
section
/-! DEFINITION. The operations that no input bit drives: RESET, HOLD, and the row ILLEGAL. -/

namespace Sys2Proof.Machine

/-- RESET (R202): `ST <- SEARCHING; SR <- 0; IDX <- 0`; every other register keeps what it held
(DEDUCED, log entry 9); no event, whatever frame was in progress. -/
def execReset (s : State) : Host.Outcome State Fault Refusal := .next s.quiet.freshSearch

/-- HOLD (R203): nothing is written and nothing is output (log entry 10). -/
def execHold (s : State) : Host.Outcome State Fault Refusal := .next s.quiet

/-- ILLEGAL (R89): "no semantics: ... a model with a 2-bit `ST` refuses the step". -/
def execIllegal (_s : State) : Host.Outcome State Fault Refusal := .refused .illegalState

end Sys2Proof.Machine
end

