-- ==== Sys2Proof/Machine/Dispatch.lean ====
section
/-! DEFINITION. One arm per operation of R80, each a direct call of its meaning. -/

namespace Sys2Proof.Machine

def exec (i : Instr) (s : State) : Host.Outcome State Fault Refusal :=
  match i with
  | .reset => Sys2Proof.Machine.execReset s
  | .hold => Sys2Proof.Machine.execHold s
  | .srchShift b => Sys2Proof.Machine.execSrchShift b s
  | .srchSync b => Sys2Proof.Machine.execSrchSync b s
  | .lenShift b => Sys2Proof.Machine.execLenShift b s
  | .lenOpen b => Sys2Proof.Machine.execLenOpen b s
  | .lenEmpty b => Sys2Proof.Machine.execLenEmpty b s
  | .lenOvf b => Sys2Proof.Machine.execLenOvf b s
  | .payStore b => Sys2Proof.Machine.execPayStore b s
  | .payEmit b => Sys2Proof.Machine.execPayEmit b s
  | .payPass b => Sys2Proof.Machine.execPayPass b s
  | .payDrop b => Sys2Proof.Machine.execPayDrop b s
  | .illegal => Sys2Proof.Machine.execIllegal s

end Sys2Proof.Machine
end

