-- ==== Sys2Proof/WellFormed.lean ====
section
/-! DEFINITION. Which operations a step can select, and which configurations the spec defines. -/

namespace Sys2Proof

/-- An operation with an operand some step can give it. LEN.EMPTY takes `L = 0`, whose last bit is 0,
so with `b = 1` it is "not reachable (`L = 0` needs `b = 0`)" (R123; 95_test_vectors.md 2.7). Every
other operand is possible. -/
def Instr.wellFormed : Instr → Bool
  | .lenEmpty b => !b
  | .reset | .hold | .srchShift _ | .srchSync _ | .lenShift _ | .lenOpen _ | .lenOvf _
  | .payStore _ | .payEmit _ | .payPass _ | .payDrop _ | .illegal => true

/-- The legal configurations of R253. The ranges of `HAS_CRC`, `CHECK_CRC`, `CRC_POLY` and `MAX_LEN`
hold by their types; the two bounds that remain are `W >= 1` and `SYNC_PATTERN < 2^W`. -/
def Config.legal (c : Config) : Bool := decide (1 ≤ c.w) && decide (c.syncPattern < 2 ^ c.w)

end Sys2Proof
end

