-- ==== Sys2Proof/Decode.lean ====
section
/-! DEFINITION. The step selector word (R80): its decoder, its encoder, and the opcode table they are
written from. -/

namespace Sys2Proof

/-- Why a selector word names no operation. -/
inductive DecodeError where
  /-- `0x5E`, `0x5F`, `0x6E`, `0x6F` (`p = 1`, `c = 0b11`): no semantics (R83). -/
  | noSemantics (w : BitVec 8)
  deriving DecidableEq, Repr

/-- `SEL[7:0] = rst ++ vld ++ ST[1:0] ++ p ++ c[1:0] ++ b` (R80); `rst` is bit 7, `b` is bit 0. -/
def selWord (rst vld : Bit) (st : BitVec 2) (p : Bit) (c : BitVec 2) (b : Bit) : BitVec 8 :=
  BitVec.ofBool rst ++ BitVec.ofBool vld ++ st ++ BitVec.ofBool p ++ c ++ BitVec.ofBool b

/-- One row of the table of R80: the step performs the operation whose `(SEL & mask) = pattern`. `op`
builds it from the operand bit `b`, which a row without an operand ignores. -/
structure SelRow where
  mask : BitVec 8
  pattern : BitVec 8
  op : Bit → Instr

/-- The word belongs to the row. -/
def SelRow.matches (r : SelRow) (w : BitVec 8) : Bool := w &&& r.mask == r.pattern

/-- The table of R80, row by row. -/
def selectorTable : List SelRow :=
  [ ⟨0x80#8, 0x80#8, fun _ => .reset⟩,
    ⟨0xC0#8, 0x00#8, fun _ => .hold⟩,
    ⟨0xF8#8, 0x40#8, .srchShift⟩,
    ⟨0xF8#8, 0x48#8, .srchSync⟩,
    ⟨0xF8#8, 0x50#8, .lenShift⟩,
    ⟨0xFE#8, 0x58#8, .lenOpen⟩,
    ⟨0xFE#8, 0x5A#8, .lenEmpty⟩,
    ⟨0xFE#8, 0x5C#8, .lenOvf⟩,
    ⟨0xF8#8, 0x60#8, .payStore⟩,
    ⟨0xFE#8, 0x68#8, .payEmit⟩,
    ⟨0xFE#8, 0x6A#8, .payPass⟩,
    ⟨0xFE#8, 0x6C#8, .payDrop⟩,
    ⟨0xF0#8, 0x70#8, fun _ => .illegal⟩ ]

/-- The operation a selector word names, with its operand `b` from bit 0: total, and a word of no row
is rejected by name (R80, R83). -/
def decode (w : BitVec 8) : Except DecodeError Instr :=
  match selectorTable.find? (·.matches w) with
  | some r => .ok (r.op (w.getLsbD 0))
  | none => .error (.noSemantics w)

/-- The selector word of an operation: its row's pattern, the operand in bit 0 and every ignored bit
0 (R80). Written field by field from `rst ++ vld ++ ST ++ p ++ c ++ b`. -/
def encode : Instr → BitVec 8
  | .reset => selWord true false 0b00#2 false 0b00#2 false
  | .hold => selWord false false 0b00#2 false 0b00#2 false
  | .srchShift b => selWord false true 0b00#2 false 0b00#2 b
  | .srchSync b => selWord false true 0b00#2 true 0b00#2 b
  | .lenShift b => selWord false true 0b01#2 false 0b00#2 b
  | .lenOpen b => selWord false true 0b01#2 true 0b00#2 b
  | .lenEmpty b => selWord false true 0b01#2 true 0b01#2 b
  | .lenOvf b => selWord false true 0b01#2 true 0b10#2 b
  | .payStore b => selWord false true 0b10#2 false 0b00#2 b
  | .payEmit b => selWord false true 0b10#2 true 0b00#2 b
  | .payPass b => selWord false true 0b10#2 true 0b01#2 b
  | .payDrop b => selWord false true 0b10#2 true 0b10#2 b
  | .illegal => selWord false true 0b11#2 false 0b00#2 false

/-- The instruction read from the `nbits`-bit word `w` of spec/opcode_table.json. A selector word is
one byte, so the table's rows have 8 bits. -/
def decodeTableWord (nbits w : Nat) : Option Instr :=
  if nbits = 8 ∧ w < 256 then
    match decode (BitVec.ofNat 8 w) with
    | .ok i => some i
    | .error _ => none
  else none

end Sys2Proof
end

