-- ==== Sys2Proof/Machine/Flags.lean ====
section
/-! DEFINITION. The block stores no flags and no condition codes (R28). What steers a step are the
combinational predicates `p` and `c` of R79, computed and consumed inside the step. -/

namespace Sys2Proof.Machine

/-- The class `c` of a length field `L` (R79, R225): above `MAX_LEN` first, then size 0, then open. -/
def lenClass (c : Config) (l : Byte) : BitVec 2 :=
  if c.maxLen < l then 0b10#2 else if nbits c l = 0 then 0b01#2 else 0b00#2

/-- The class `c` of a completion (R79, R182; log entry 20): unchecked, pass, fail. -/
def State.crcClass (s : State) (b : Bit) : Except Fault (BitVec 2) :=
  if verifyEn s.cfg then
    match s.completion b with
    | .error f => .error f
    | .ok (_, packed) =>
      .ok (if recvOf s.cfg s.len packed = some (calcOf s.cfg s.len packed) then 0b01#2 else 0b10#2)
  else .ok 0b00#2

/-- The predicate `p` (R79). `IDX + 1` is compared as a number, and both indices by equality, as R79 has
it (log entry 13). DESIGN CHOICE (log entry 8): R79 gives no `p` for `ST = 0b11`, where it selects
nothing (R80); it is 0 here. -/
def State.predP (s : State) (inp : StepInput) : Bit :=
  if inp.rst || !inp.vld then false
  else if s.st = stSearching then decide (s.window inp.b = s.cfg.syncPattern)
  else if s.st = stReadingLength then decide (s.idx = 7#12)
  else if s.st = stReadingPayload then decide (s.idx.toNat + 1 = nbits s.cfg s.len)
  else false

/-- The predicate `c` (R79). DESIGN CHOICE (log entry 8): R79 gives no `c` for `ST = 0b11`, where it
selects nothing (R80); it is `0b00` here. -/
def State.predC (s : State) (inp : StepInput) : Except Fault (BitVec 2) :=
  if s.predP inp then
    if s.st = stReadingLength then .ok (lenClass s.cfg (s.lenField inp.b))
    else if s.st = stReadingPayload then s.crcClass inp.b
    else .ok 0b00#2
  else .ok 0b00#2

end Sys2Proof.Machine
end

