-- ==== Sys2Proof/Machine/Select.lean ====
section
/-! DEFINITION. What stands in the place of an instruction fetch: the selector word of the step. -/

namespace Sys2Proof.Machine

/-- The selector word of a step from `s` with input `inp` (R80). It faults only where the CRC verdict
has to read a cell that does not exist or was never written. -/
def State.selector (s : State) (inp : StepInput) : Except Fault (BitVec 8) :=
  match s.predC inp with
  | .error f => .error f
  | .ok c => .ok (selWord inp.rst inp.vld s.st (s.predP inp) c inp.b)

end Sys2Proof.Machine
end

