-- ==== Sys2Proof/Machine/Cycle.lean ====
section
/-! DEFINITION. One step of the block: take the input, select the operation, perform it. -/

namespace Sys2Proof.Machine

/-- One step (R11, R80): refuse an illegal configuration (R253; log entry 14); take the input of the step; form the
selector word from it, `ST` and the predicates; perform the operation the word names, once, on the
state with the input taken. -/
def State.cycle (s : State) : Host.Outcome State Fault Refusal :=
  if s.cfg.legal then
    match s.takeInput.selector s.nextInput with
    | .error f => .fault f
    | .ok w =>
      match decode w with
      | .ok i => exec i s.takeInput
      | .error _ => .refused (.noSelectorRow w)
  else .refused .illegalConfig

end Sys2Proof.Machine
end

