-- ==== Sys2Proof/Machine/Placement.lean ====
section
/-! DEFINITION. How a given selector word is made the next step's (log entry 7): the input it holds is
put at the port, and the registers and straps its predicates are computed from are set so that they come
out as the word has them. -/

namespace Sys2Proof.Machine

/-- Write a list of bits to consecutive cells. -/
def Memory.writeBits (m : Memory) (i : Nat) : List Bit → Memory
  | [] => m
  | b :: q => Memory.writeBits (Memory.write m i b) (i + 1) q

/-- The straps themselves where they are legal; else the nearest legal ones (R253). -/
def legalStraps (c : Config) : Config :=
  if c.legal then c else { c with w := max c.w 1, syncPattern := c.syncPattern % 2 ^ max c.w 1 }

/-- The first fifteen bits of a 16-bit trailer, as they arrive. -/
def trailerHead (t : Word) : List Bit := (List.range 15).map fun k => t.getLsbD (15 - k)

/-- A polynomial under which the CRC of `[0x00]` has the low bit `b`: the given one if it does. -/
def polyFor (p : Word) (b : Bit) : Word :=
  if (crc16 [0#8] p).getLsbD 0 = b then p else if b then 1#16 else 0#16

/-- The registers and straps with which the next bit step performs `i`, one case for each condition of
R79. `RESET` and `HOLD` need none. -/
def State.readyFor (i : Instr) (s : State) : State :=
  let c := legalStraps s.cfg
  match i with
  | .reset | .hold => { s with cfg := c }
  | .srchShift b =>
    { s with st := stSearching, sr := 0,
             cfg := if c.syncPattern = b.toNat then { c with syncPattern := 1 - b.toNat } else c }
  | .srchSync b =>
    { s with st := stSearching, sr := c.syncPattern / 2,
             cfg := { c with syncPattern := c.syncPattern / 2 * 2 + b.toNat } }
  | .lenShift _ => { s with st := stReadingLength, sr := 0, idx := 0#12, cfg := c }
  | .lenOpen b =>
    { s with st := stReadingLength, sr := if b then 0 else 1, idx := 7#12,
             cfg := { c with maxLen := if c.maxLen < 2#8 then 2#8 else c.maxLen } }
  | .lenEmpty _ =>
    { s with st := stReadingLength, sr := 0, idx := 7#12, cfg := { c with hasCrc := false } }
  | .lenOvf _ =>
    { s with st := stReadingLength, sr := 127, idx := 7#12,
             cfg := { c with maxLen := if c.maxLen < 254#8 then c.maxLen else 253#8 } }
  | .payStore _ =>
    { s with st := stReadingPayload, idx := 0#12, len := 1#8,
             cfg := { c with maxLen := if c.maxLen = 0#8 then 1#8 else c.maxLen } }
  | .payEmit _ =>
    { s with st := stReadingPayload, idx := 7#12, len := 1#8,
             buf := Memory.writeBits s.buf 0 (List.replicate 7 false),
             cfg := { c with hasCrc := false, maxLen := if c.maxLen = 0#8 then 1#8 else c.maxLen } }
  | .payPass b =>
    { s with st := stReadingPayload, idx := 15#12, len := 0#8,
             buf := Memory.writeBits s.buf 0 (trailerHead (crc16 [0#8] (polyFor c.crcPoly b))),
             cfg := { c with hasCrc := true, checkCrc := true, crcPoly := polyFor c.crcPoly b } }
  | .payDrop _ =>
    { s with st := stReadingPayload, idx := 15#12, len := 0#8,
             buf := Memory.writeBits s.buf 0 (trailerHead (crc16 [0#8] c.crcPoly ^^^ 0x8000#16)),
             cfg := { c with hasCrc := true, checkCrc := true } }
  | .illegal => { s with st := stIllegal, cfg := c }

/-- The state with the instruction of the table word `w` placed where the next step takes it: its
`rst`, `vld` and `b` bits at the head of the pending input, and the registers ready for it. A word that
names no operation places nothing. -/
def State.placeWord (s : State) (nbits w : Nat) : State :=
  match decodeTableWord nbits w with
  | none => s
  | some i =>
    { s.readyFor i with pending := ⟨w.testBit 7, w.testBit 6, w.testBit 0⟩ :: s.pending }

end Sys2Proof.Machine
end

