-- ==== Sys2Proof/Machine/Step.lean ====
section
/-! DEFINITION. The step, and the placing of a selector word for the next step. -/

namespace Sys2Proof.Machine

/-- One application of the spec's step function (R11), its input taken from the state. -/
def step (s : State) : Host.Outcome State Fault Refusal := s.cycle

/-- `s` with the instruction whose selector word is `w` made the next step's (log entry 7). -/
def State.withFetchWord (s : State) (nbits w : Nat) : State := s.placeWord nbits w

end Sys2Proof.Machine
end

