-- ==== Sys2Proof/Machine/Stream.lean ====
section
/-! DEFINITION. Runs over an input stream (R206), the wire frame (R71, R72), the window in closed form
(R105), and the notation for stimulus programs (R85, R86). -/

namespace Sys2Proof.Machine

/-- One application of the spec's `step(cfg, s, in)` (R11): `in` is presented at the port, ahead of
whatever is pending, and taken by this step. The output is the field `out` of the next state. -/
def State.stepIn (s : State) (inp : StepInput) : Host.Outcome State Fault Refusal :=
  step { s with pending := inp :: s.pending }

/-- Apply the inputs in order; the final state and the events output, in step order. `none` if a step
faults or is refused. -/
def State.runInputs (s : State) : List StepInput → Option (State × List Event)
  | [] => some (s, [])
  | inp :: ins =>
    match s.stepIn inp with
    | .next t =>
      match t.runInputs ins with
      | some (u, es) => some (u, t.out.toList ++ es)
      | none => none
    | .fault _ => none
    | .refused _ => none

/-- `run(cfg, s, q)`: a step with `in = (0, 1, b)` for each bit, in order (R206). -/
def State.runBits (s : State) (q : List Bit) : Option (State × List Event) :=
  s.runInputs (q.map StepInput.ofBit)

/-- A call of the source's interface with the bits `q` (R206): the run over them, and the count of bits
consumed, which is always all of them. An empty call does nothing and returns 0. -/
def State.call (s : State) (q : List Bit) : Option (State × List Event × Nat) :=
  (s.runBits q).map fun r => (r.1, r.2, q.length)

/-- A list of calls, one after the other on the same instance (R206): the final state, the events of all
of them in step order, and what each returned. -/
def State.calls (s : State) : List (List Bit) → Option (State × List Event × List Nat)
  | [] => some (s, [], [])
  | q :: qs =>
    match s.call q with
    | none => none
    | some (t, es, n) => (t.calls qs).map fun r => (r.1, es ++ r.2.1, n :: r.2.2)

/-- `bits_n(v)`: the `n` bits of `v`, most significant first (R9). -/
def bitsOf (n v : Nat) : List Bit := (List.range n).map fun k => v.testBit (n - 1 - k)

/-- The unsigned value of a bit sequence, the first bit the most significant. -/
def bitsVal (q : List Bit) : Nat := q.foldl (fun a b => 2 * a + b.toNat) 0

/-- `win_k` for the bits `q = b_1 .. b_k` (R105): the value of the last `W` elements of `W` zeros
followed by `q`. -/
def winVal (w : Nat) (q : List Bit) : Nat := bitsVal ((List.replicate w false ++ q).drop q.length)

/-- The bits of a byte sequence, byte 0 first, each byte most significant bit first (R57). -/
def bytesBits (bs : List Byte) : List Bit := bs.flatMap byteBits

/-- `FRAMEX(cfg, L, payload, t)` (R72). -/
def frameX (c : Config) (l : Byte) (payload : List Byte) (t : Word) : List Bit :=
  bitsOf c.w c.syncPattern ++ byteBits l ++ bytesBits payload
    ++ if c.hasCrc then bitsOf 16 t.toNat else []

/-- The trailer of the well-formed frame: `CRC16([len(payload)] ++ payload, CRC_POLY)` (R72). -/
def frameCrc (c : Config) (payload : List Byte) : Word :=
  crc16 (BitVec.ofNat 8 payload.length :: payload) c.crcPoly

/-- `FRAME(cfg, payload)`, the well-formed frame (R72). -/
def frame (c : Config) (payload : List Byte) : List Bit :=
  frameX c (BitVec.ofNat 8 payload.length) payload (frameCrc c payload)

/-- A line of a stimulus program (R85, R86), without its spelling as text (log entry 23). -/
inductive Line where
  /-- `BITS`: one step `(0, 1, b)` per character. -/
  | bits (q : List Bit)
  /-- `HEX`: the bits of each byte in order. -/
  | hex (bs : List Byte)
  /-- `IDLE n`: `n` steps `(0, 0, 0)`. -/
  | idle (n : Nat)
  /-- `RST`: one step `(1, 0, 0)`. -/
  | rst
  /-- `FRAME`: the well-formed frame of a payload. -/
  | frame (payload : List Byte)
  /-- `FRAMEX len= data= crc=`: any length, bytes and trailer. -/
  | frameX (len : Byte) (data : List Byte) (crc : Word)
  /-- `ZEROS n`: `n` zero bits. -/
  | zeros (n : Nat)
  deriving DecidableEq, Repr

/-- The bits a line carries; RST and IDLE carry none (R85). -/
def Line.payloadBits (c : Config) : Line → List Bit
  | .bits q => q
  | .hex bs => bytesBits bs
  | .idle _ => []
  | .rst => []
  | .frame payload => Sys2Proof.Machine.frame c payload
  | .frameX len data crc => Sys2Proof.Machine.frameX c len data crc
  | .zeros n => List.replicate n false

/-- The steps a line expands to (R85, R86). -/
def Line.steps (c : Config) (l : Line) : List StepInput :=
  match l with
  | .idle n => List.replicate n ⟨false, false, false⟩
  | .rst => [⟨true, false, false⟩]
  | .bits _ | .hex _ | .frame _ | .frameX _ _ _ | .zeros _ =>
    (l.payloadBits c).map StepInput.ofBit

/-- The steps of a program, top to bottom (R85). -/
def programSteps (c : Config) (p : List Line) : List StepInput := p.flatMap (·.steps c)

/-- The encoding of a program: the concatenated bits of its lines (R85). -/
def programBits (c : Config) (p : List Line) : List Bit := p.flatMap (·.payloadBits c)

end Sys2Proof.Machine
end

