-- ==== Sys2Proof/Safety.lean ====
section
/-! DEFINITION. The terms the statements use: the invariant of R34, a fresh search, the states that
agree on everything an output can depend on (R31), and the dispatch of R201 written out as a chain of
tests. -/

namespace Sys2Proof.Machine

/-- The invariant of R34, with the width of `SR` (R23), the canonical form of the buffer and its
capacity (R50). The configuration is legal. -/
structure Inv (s : State) : Prop where
  cfgLegal : s.cfg.legal = true
  /-- R34 (a) -/
  stLegal : s.st ≠ stIllegal
  /-- R23: `SR` has `max(W, 8)` bits -/
  srFits : s.sr < 2 ^ srWidth s.cfg
  bufWf : Memory.wf s.buf = true
  /-- R54: no cell at or above `CAP` has been written -/
  bufInCap : ∀ i v, Memory.read s.buf i = some v → i < bufCap s.cfg
  /-- R34 (b) -/
  searching : s.st = stSearching → s.idx = 0#12 ∧ s.sr < 2 ^ s.cfg.w
  /-- R34 (c) -/
  readingLength : s.st = stReadingLength → s.idx.toNat ≤ 7 ∧ s.sr < 2 ^ s.idx.toNat
  /-- R34 (d); which bits the written cells hold is a property of a run, not of a state -/
  readingPayload : s.st = stReadingPayload →
    s.len.toNat ≤ s.cfg.maxLen.toNat ∧ 0 < nbits s.cfg s.len ∧
    s.idx.toNat < nbits s.cfg s.len ∧ ∀ i < s.idx.toNat, (Memory.read s.buf i).isSome

/-- The start of a search: `ST = SEARCHING`, `SR = 0`, `IDX = 0` (R33, R186). -/
def FreshSearch (s : State) : Prop := s.st = stSearching ∧ s.sr = 0 ∧ s.idx = 0#12

/-- The side condition of R187: fed from a fresh search, the sync word is matched by none of its proper
beginnings. -/
def NoEarlyMatch (c : Config) : Prop :=
  ∀ k, 1 ≤ k → k < c.w → winVal c.w ((bitsOf c.w c.syncPattern).take k) ≠ c.syncPattern

/-- The two states agree on the configuration, on `ST` and on every register some output can still
depend on: what R31 lists as dead may differ. -/
structure SameLive (s t : State) : Prop where
  cfg : s.cfg = t.cfg
  st : s.st = t.st
  searching : s.st = stSearching → s.sr = t.sr
  readingLength : s.st = stReadingLength → s.sr = t.sr ∧ s.idx = t.idx
  readingPayload : s.st = stReadingPayload → s.idx = t.idx ∧ s.len = t.len ∧
    ∀ i < s.idx.toNat, Memory.read s.buf i = Memory.read t.buf i

/-- `q` is what the allocated cells `0 .. nbits(LEN)-1` hold once the input bit `b` has been stored in
cell `IDX` (R142), all of them being cells of the buffer. -/
structure CompletedBits (s : State) (b : Bit) (q : List Bit) : Prop where
  idxInCap : s.idx.toNat < bufCap s.cfg
  bufInCap : nbits s.cfg s.len ≤ bufCap s.cfg
  length : q.length = nbits s.cfg s.len
  bits : ∀ i < nbits s.cfg s.len,
    q[i]? = if i = s.idx.toNat then some b else Memory.read s.buf i

/-- The dispatch of R201, test by test. -/
def dispatch (s : State) (inp : StepInput) : Except Fault Instr :=
  if inp.rst then .ok .reset
  else if !inp.vld then .ok .hold
  else if s.st = stSearching then
    if s.window inp.b = s.cfg.syncPattern then .ok (.srchSync inp.b) else .ok (.srchShift inp.b)
  else if s.st = stReadingLength then
    if s.idx < 7#12 then .ok (.lenShift inp.b)
    else if s.cfg.maxLen < s.lenField inp.b then .ok (.lenOvf inp.b)
    else if nbits s.cfg (s.lenField inp.b) = 0 then .ok (.lenEmpty inp.b)
    else .ok (.lenOpen inp.b)
  else if s.st = stReadingPayload then
    if s.idx.toNat + 1 < nbits s.cfg s.len then .ok (.payStore inp.b)
    else if !verifyEn s.cfg then .ok (.payEmit inp.b)
    else
      match s.completion inp.b with
      | .error f => .error f
      | .ok (_, packed) =>
        if recvOf s.cfg s.len packed = some (calcOf s.cfg s.len packed)
        then .ok (.payPass inp.b) else .ok (.payDrop inp.b)
  else .ok .illegal

/-- An input that presents nothing: HOLD. -/
def StepInput.isHold (inp : StepInput) : Bool := !inp.rst && !inp.vld

end Sys2Proof.Machine
end

