-- ==== Sys2Proof/Certificates/Slice0/Obligations.lean ====
section
/-! DEFINITION. The statements about the model. Each says which rule of the spec it formalises; what is
the model's own choice is named as such. A `{ s with … }` on the right of an equation is a frame: every
register, memory cell and port it does not name is as it was. -/

open Sys2Proof Sys2Proof.Machine

/-! ### Encoding -/

/-- R80: an operation is read back from its selector word, with its operand. -/
def Obligations.DecodeOfEncode : Prop := ∀ i : Instr, decode (encode i) = .ok i

/-- R80, R83: the thirteen patterns are disjoint; they cover every word but the four with `p = 1`,
`c = 0b11` in READING_LENGTH and READING_PAYLOAD, which the decoder rejects by name. -/
def Obligations.SelectorPatternsDisjointAndCovering : Prop :=
  ∀ w : BitVec 8,
    (selectorTable.filter (·.matches w)).length
      = (if w ∈ [0x5E#8, 0x5F#8, 0x6E#8, 0x6F#8] then 0 else 1) ∧
    (w ∈ [0x5E#8, 0x5F#8, 0x6E#8, 0x6F#8] → decode w = .error (.noSemantics w)) ∧
    (w ∉ [0x5E#8, 0x5F#8, 0x6E#8, 0x6F#8] → ∃ i, decode w = .ok i)

/-- 95_test_vectors.md 2.7: selector words of reachable steps, written out from the table there. -/
def Obligations.SpecSelectorWordsDecode : Prop :=
  decode 0x41#8 = .ok (.srchShift true) ∧ decode 0x49#8 = .ok (.srchSync true) ∧
  decode 0x50#8 = .ok (.lenShift false) ∧ decode 0x59#8 = .ok (.lenOpen true) ∧
  decode 0x5A#8 = .ok (.lenEmpty false) ∧ decode 0x5C#8 = .ok (.lenOvf false) ∧
  decode 0x61#8 = .ok (.payStore true) ∧ decode 0x69#8 = .ok (.payEmit true) ∧
  decode 0x6A#8 = .ok (.payPass false) ∧ decode 0x6C#8 = .ok (.payDrop false) ∧
  decode 0x21#8 = .ok .hold ∧ decode 0xE1#8 = .ok .reset ∧ decode 0x70#8 = .ok .illegal

/-- R80, bit by bit: `rst` is bit 7, `vld` bit 6, `ST` bits 5:4, `p` bit 3, `c` bits 2:1, `b` bit 0. -/
def Obligations.SelectorWordLayout : Prop :=
  ∀ (rst vld : Bit) (st : BitVec 2) (p : Bit) (c : BitVec 2) (b : Bit),
    let w := selWord rst vld st p c b
    w.getLsbD 7 = rst ∧ w.getLsbD 6 = vld ∧ w.extractLsb' 4 2 = st ∧ w.getLsbD 3 = p ∧
    w.extractLsb' 1 2 = c ∧ w.getLsbD 0 = b

/-- R79, R80, R83: whatever the state and the input, the selector word of a step names an operation,
with an operand it can have, and its fields are `rst`, `vld`, `ST`, the predicates `p` and `c` of R79, and
`b`. In a step that takes a bit, `p` says that the window matches, that the eighth length bit is taken, or
that the last buffer bit is taken; `c` is the class of the length, or the CRC verdict over the buffer with
the bit stored, where `p` holds. Without a bit `p` is 0. In particular `c = 0b11`, `c != 0b00` without
`p`, and `c != 0b00` while searching are never produced. (For `ST = 0b11`, where R79 gives no predicates,
no value of theirs is stated but what R83 excludes.) -/
def Obligations.SelectorNeverProducesAReservedWord : Prop :=
  ∀ (s : State) (inp : StepInput) (w : BitVec 8), s.selector inp = .ok w →
    (∃ i, decode w = .ok i ∧ i.wellFormed = true) ∧
    w.getLsbD 7 = inp.rst ∧ w.getLsbD 6 = inp.vld ∧ w.extractLsb' 4 2 = s.st ∧
    w.getLsbD 3 = s.predP inp ∧ s.predC inp = .ok (w.extractLsb' 1 2) ∧ w.getLsbD 0 = inp.b ∧
    w.extractLsb' 1 2 ≠ 0b11#2 ∧
    (w.getLsbD 3 = false → w.extractLsb' 1 2 = 0b00#2) ∧
    (s.st = stSearching → w.extractLsb' 1 2 = 0b00#2) ∧
    ((inp.rst = true ∨ inp.vld = false) → w.getLsbD 3 = false) ∧
    (inp.rst = false → inp.vld = true →
      (s.st = stSearching →
        (w.getLsbD 3 = true ↔
          ((s.sr <<< 1) &&& (2 ^ s.cfg.w - 1)) ||| inp.b.toNat = s.cfg.syncPattern)) ∧
      (s.st = stReadingLength →
        (w.getLsbD 3 = true ↔ s.idx = 7#12) ∧
        ∀ l : Byte, l = BitVec.ofNat 8 ((s.sr <<< 1) ||| inp.b.toNat) → w.getLsbD 3 = true →
          w.extractLsb' 1 2 = if s.cfg.maxLen < l then 0b10#2
            else if 8 * l.toNat + (if s.cfg.hasCrc then 16 else 0) = 0 then 0b01#2 else 0b00#2) ∧
      (s.st = stReadingPayload →
        (w.getLsbD 3 = true ↔
          s.idx.toNat + 1 = 8 * s.len.toNat + (if s.cfg.hasCrc then 16 else 0)) ∧
        ((s.cfg.hasCrc = false ∨ s.cfg.checkCrc = false) → w.extractLsb' 1 2 = 0b00#2) ∧
        ∀ (q payload : List Bit) (received : Word), s.cfg.hasCrc = true → s.cfg.checkCrc = true →
          w.getLsbD 3 = true → CompletedBits s inp.b q →
          q = payload ++ bitsOf 16 received.toNat →
          w.extractLsb' 1 2
            = if crc16 (s.len :: pack payload) s.cfg.crcPoly = received then 0b01#2 else 0b10#2))

/-! ### The step -/

/-- A step is the operation its selector word decodes to, performed on the state with the input taken
(R11, R80). MODEL (log entry 10): taking the input changes `pending` and nothing else, and with nothing
pending the input is that of HOLD. -/
def Obligations.StepRunsTheDecodedOperation : Prop :=
  (∀ (s : State) (w : BitVec 8) (i : Instr), s.cfg.legal = true →
    s.takeInput.selector s.nextInput = .ok w → decode w = .ok i → step s = exec i s.takeInput) ∧
  (∀ s : State, s.takeInput = { s with pending := s.pending.tail }) ∧
  (∀ (s : State) (inp : StepInput) (rest : List StepInput),
    s.pending = inp :: rest → s.nextInput = inp) ∧
  (∀ s : State, s.pending = [] → s.nextInput = ⟨false, false, false⟩)

/-- MODEL (log entry 7): after placing the word of an operation that a step can select, the very next
step is that operation, on the registers it was placed with. -/
def Obligations.PlacedWordIsTheNextStep : Prop :=
  ∀ (s : State) (w : Nat) (i : Instr), decodeTableWord 8 w = some i → i.wellFormed = true →
    step (s.withFetchWord 8 w) = exec i { s.withFetchWord 8 w with pending := s.pending }

/-- R201: in every state of the invariant a step is the operation the chain of tests of R201 picks, and
the chain always picks one. -/
def Obligations.StepIsTheDispatchOfTheSpec : Prop :=
  ∀ (s : State) (inp : StepInput), Inv s →
    ∃ i, dispatch s inp = .ok i ∧ s.stepIn inp = exec i s

/-! ### The operations: result, frame, encoding and the condition of the step -/

/-- R202: RESET writes `ST`, `SR` and `IDX`, outputs nothing, and has priority over everything else in
the step. That `LEN`, `BUF` and `CRC` keep what they held is DEDUCED (log entry 9). -/
def Obligations.ResetGivesAFreshSearch : Prop :=
  (∀ s : State, exec .reset s
    = .next { s with st := 0b00#2, sr := 0, idx := 0#12, out := none }) ∧
  (∀ w : BitVec 8, w &&& 0x80#8 = 0x80#8 → decode w = .ok .reset) ∧
  (∀ (s : State) (vld b : Bit), s.cfg.legal = true → s.stepIn ⟨true, vld, b⟩
    = .next { s with st := 0b00#2, sr := 0, idx := 0#12, out := none })

/-- R203: HOLD writes nothing and outputs nothing. -/
def Obligations.HoldWritesNothing : Prop :=
  (∀ s : State, exec .hold s = .next { s with out := none }) ∧
  (∀ w : BitVec 8, w &&& 0xC0#8 = 0x00#8 → decode w = .ok .hold) ∧
  (∀ (s : State) (b : Bit), s.cfg.legal = true →
    s.stepIn ⟨false, false, b⟩ = .next { s with out := none })

/-- R102: SRCH.SHIFT writes the window after the shift to `SR` and nothing else; it is the step of a bit
while searching when that window is not the sync word, so afterwards `SR` is not the sync word. R101:
the window has `W` bits whatever `SR` was. -/
def Obligations.SrchShiftMovesTheWindow : Prop :=
  (∀ (b : Bit) (s : State), exec (.srchShift b) s = .next
    { s with sr := ((s.sr <<< 1) &&& (2 ^ s.cfg.w - 1)) ||| b.toNat, out := none }) ∧
  (∀ w : BitVec 8, w &&& 0xF8#8 = 0x40#8 → decode w = .ok (.srchShift (w.getLsbD 0))) ∧
  (∀ (b : Bit) (s : State), s.cfg.legal = true → s.st = stSearching →
    ((s.sr <<< 1) &&& (2 ^ s.cfg.w - 1)) ||| b.toNat ≠ s.cfg.syncPattern →
    s.stepIn (.ofBit b) = .next
      { s with sr := ((s.sr <<< 1) &&& (2 ^ s.cfg.w - 1)) ||| b.toNat, out := none }) ∧
  (∀ (b : Bit) (s : State), s.cfg.legal = true →
    ((s.sr <<< 1) &&& (2 ^ s.cfg.w - 1)) ||| b.toNat < 2 ^ s.cfg.w)

/-- R103: SRCH.SYNC clears `SR` and `IDX`, enters READING_LENGTH and outputs nothing; it is the step of a
bit while searching when the window after the shift is the sync word. -/
def Obligations.SrchSyncEntersReadingLength : Prop :=
  (∀ (b : Bit) (s : State), exec (.srchSync b) s = .next
    { s with sr := 0, idx := 0#12, st := 0b01#2, out := none }) ∧
  (∀ w : BitVec 8, w &&& 0xF8#8 = 0x48#8 → decode w = .ok (.srchSync (w.getLsbD 0))) ∧
  (∀ (b : Bit) (s : State), s.cfg.legal = true → s.st = stSearching →
    ((s.sr <<< 1) &&& (2 ^ s.cfg.w - 1)) ||| b.toNat = s.cfg.syncPattern →
    s.stepIn (.ofBit b) = .next { s with sr := 0, idx := 0#12, st := 0b01#2, out := none })

/-- R121: LEN.SHIFT shifts the bit into `SR` without a mask and counts it in `IDX`; it is the step of
length bits 1 to 7. DEDUCED (log entry 6): a value the register's `max(W, 8)` bits do not hold is
truncated to them; with fewer than 8 length bits in `SR` nothing is lost. DEDUCED (log entry 22):
`IDX + 1` is the 12-bit sum, which wraps in no reachable state. -/
def Obligations.LenShiftTakesALengthBit : Prop :=
  (∀ (b : Bit) (s : State), exec (.lenShift b) s = .next
    { s with sr := ((s.sr <<< 1) ||| b.toNat) % 2 ^ max s.cfg.w 8, idx := s.idx + 1#12,
             out := none }) ∧
  (∀ w : BitVec 8, w &&& 0xF8#8 = 0x50#8 → decode w = .ok (.lenShift (w.getLsbD 0))) ∧
  (∀ (b : Bit) (s : State), s.cfg.legal = true → s.st = stReadingLength → s.idx.toNat < 7 →
    s.sr < 2 ^ 7 →
    s.stepIn (.ofBit b) = .next
      { s with sr := (s.sr <<< 1) ||| b.toNat, idx := s.idx + 1#12, out := none })

/-- R122: LEN.OPEN writes the length, keeps it in `SR` too, clears `IDX`, enters READING_PAYLOAD, writes
no buffer cell and outputs nothing; it is the step of the eighth length bit when
`L <= MAX_LEN` and `nbits(L) > 0`. DEDUCED (log entry 6): R122 writes `SR` without a mask, and a value the
register's `max(W, 8)` bits do not hold is truncated to them; with fewer than 8 length bits in `SR`, as in
the step, nothing is lost. -/
def Obligations.LenOpenOpensTheBuffer : Prop :=
  (∀ (b : Bit) (s : State), exec (.lenOpen b) s = .next
    { s with len := BitVec.ofNat 8 ((s.sr <<< 1) ||| b.toNat),
             sr := ((s.sr <<< 1) ||| b.toNat) % 2 ^ max s.cfg.w 8,
             idx := 0#12, st := 0b10#2, out := none }) ∧
  (∀ w : BitVec 8, w &&& 0xFE#8 = 0x58#8 → decode w = .ok (.lenOpen (w.getLsbD 0))) ∧
  (∀ (b : Bit) (s : State) (l : Nat), s.cfg.legal = true → s.st = stReadingLength →
    s.idx = 7#12 → s.sr < 2 ^ 7 → l = (s.sr <<< 1) ||| b.toNat →
    l ≤ s.cfg.maxLen.toNat → 0 < 8 * l + (if s.cfg.hasCrc then 16 else 0) →
    s.stepIn (.ofBit b) = .next
      { s with len := BitVec.ofNat 8 l, sr := l, idx := 0#12, st := 0b10#2, out := none })

/-- R123: LEN.EMPTY completes the empty packet in the step of the eighth length bit, without touching the
buffer; that step is the one with `L <= MAX_LEN` and `nbits(L) = 0`, that is `L = 0` without a trailer. -/
def Obligations.LenEmptyCompletesTheEmptyPacket : Prop :=
  (∀ (b : Bit) (s : State), exec (.lenEmpty b) s = .next
    { s with len := 0#8, sr := 0, idx := 0#12, st := 0b00#2, out := some (.packet 0#8 []),
             sink := s.sink ++ [.packet 0#8 []] }) ∧
  (∀ w : BitVec 8, w &&& 0xFE#8 = 0x5A#8 → decode w = .ok (.lenEmpty (w.getLsbD 0))) ∧
  (∀ (b : Bit) (s : State) (l : Nat), s.cfg.legal = true → s.st = stReadingLength →
    s.idx = 7#12 → s.sr < 2 ^ 7 → l = (s.sr <<< 1) ||| b.toNat →
    l ≤ s.cfg.maxLen.toNat → 8 * l + (if s.cfg.hasCrc then 16 else 0) = 0 →
    s.stepIn (.ofBit b) = .next
      { s with len := 0#8, sr := 0, idx := 0#12, st := 0b00#2, out := some (.packet 0#8 []),
               sink := s.sink ++ [.packet 0#8 []] }) ∧
  (∀ (c : Config) (l : Byte), nbits c l = 0 ↔ (l = 0#8 ∧ c.hasCrc = false))

/-- R124, R221: LEN.OVF writes the length, raises ALLOC_FAIL with it and returns to the search; it is the
step of the eighth length bit when `L > MAX_LEN`. -/
def Obligations.LenOvfRaisesAllocFail : Prop :=
  (∀ (b : Bit) (s : State) (l : Byte), l = BitVec.ofNat 8 ((s.sr <<< 1) ||| b.toNat) →
    exec (.lenOvf b) s = .next
      { s with len := l, sr := 0, idx := 0#12, st := 0b00#2, out := some (.allocFail l),
               sink := s.sink ++ [.allocFail l] }) ∧
  (∀ w : BitVec 8, w &&& 0xFE#8 = 0x5C#8 → decode w = .ok (.lenOvf (w.getLsbD 0))) ∧
  (∀ (b : Bit) (s : State) (l : Nat), s.cfg.legal = true → s.st = stReadingLength →
    s.idx = 7#12 → s.sr < 2 ^ 7 → l = (s.sr <<< 1) ||| b.toNat → s.cfg.maxLen.toNat < l →
    s.stepIn (.ofBit b) = .next
      { s with len := BitVec.ofNat 8 l, sr := 0, idx := 0#12, st := 0b00#2,
               out := some (.allocFail (BitVec.ofNat 8 l)),
               sink := s.sink ++ [.allocFail (BitVec.ofNat 8 l)] })

/-- R140: PAY.STORE writes the bit to cell `IDX`, the old `IDX`, and counts it; every other cell reads as
before; it is the step of a buffer bit with `IDX + 1 < nbits(LEN)`. The write needs the cell to exist
(R50; log entry 4). DEDUCED (log entry 22): `IDX + 1` is the 12-bit sum, which wraps in no reachable
state. -/
def Obligations.PayStoreWritesOneCell : Prop :=
  (∀ (b : Bit) (s : State), s.idx.toNat < 8 * s.cfg.maxLen.toNat + 16 →
    exec (.payStore b) s = .next
      { s with buf := Memory.write s.buf s.idx.toNat b, idx := s.idx + 1#12, out := none }) ∧
  (∀ (b : Bit) (s t : State), exec (.payStore b) s = .next t →
    Memory.read t.buf s.idx.toNat = some b ∧
    ∀ a, a ≠ s.idx.toNat → Memory.read t.buf a = Memory.read s.buf a) ∧
  (∀ w : BitVec 8, w &&& 0xF8#8 = 0x60#8 → decode w = .ok (.payStore (w.getLsbD 0))) ∧
  (∀ (b : Bit) (s : State), s.cfg.legal = true → s.st = stReadingPayload →
    s.len.toNat ≤ s.cfg.maxLen.toNat → s.idx.toNat + 1 < nbits s.cfg s.len →
    s.stepIn (.ofBit b) = .next
      { s with buf := Memory.write s.buf s.idx.toNat b, idx := s.idx + 1#12, out := none })

/-- R183, R181, R186: PAY.EMIT stores the bit, packs the buffer and outputs the payload, the trailer
stripped if there is one, then returns to the search; `LEN` keeps its value and every cell but `IDX`
reads as before. It is the step of the last buffer bit when nothing is to be verified. -/
def Obligations.PayEmitOutputsThePayload : Prop :=
  (∀ (b : Bit) (s : State) (q : List Bit) (e : Event), CompletedBits s b q →
    e = .packet s.len (if s.cfg.hasCrc then (pack q).take s.len.toNat else pack q) →
    exec (.payEmit b) s = .next
      { s with buf := Memory.write s.buf s.idx.toNat b, sr := 0, idx := 0#12, st := 0b00#2,
               out := some e, sink := s.sink ++ [e] }) ∧
  (∀ (b : Bit) (s t : State), exec (.payEmit b) s = .next t →
    Memory.read t.buf s.idx.toNat = some b ∧
    ∀ a, a ≠ s.idx.toNat → Memory.read t.buf a = Memory.read s.buf a) ∧
  (∀ w : BitVec 8, w &&& 0xFE#8 = 0x68#8 → decode w = .ok (.payEmit (w.getLsbD 0))) ∧
  (∀ (b : Bit) (s : State), s.cfg.legal = true → s.st = stReadingPayload →
    s.idx.toNat + 1 = nbits s.cfg s.len → (s.cfg.hasCrc = false ∨ s.cfg.checkCrc = false) →
    s.stepIn (.ofBit b) = exec (.payEmit b) s)

/-- R184, R186: PAY.PASS stores the bit, packs the buffer and outputs the payload without the trailer,
then returns to the search. What the register `CRC` holds afterwards is unspecified (R26) and the
statement is about every value of it. It is the step of the last buffer bit when `HAS_CRC = 1`,
`CHECK_CRC = 1` and the CRC over the length byte and the payload is the received one. MODEL: without a
trailer there is no received CRC (R181) and the operation is refused. -/
def Obligations.PayPassOutputsTheVerifiedPayload : Prop :=
  (∀ (b : Bit) (s : State) (q : List Bit) (e : Event), CompletedBits s b q → s.cfg.hasCrc = true →
    e = .packet s.len ((pack q).take s.len.toNat) →
    ∃ (v : Word) (n : Nat), exec (.payPass b) s = .next
      { s with buf := Memory.write s.buf s.idx.toNat b, sr := 0, idx := 0#12, st := 0b00#2,
               crc := v, crcRuns := n, out := some e, sink := s.sink ++ [e] }) ∧
  (∀ (b : Bit) (s t : State), exec (.payPass b) s = .next t →
    Memory.read t.buf s.idx.toNat = some b ∧
    ∀ a, a ≠ s.idx.toNat → Memory.read t.buf a = Memory.read s.buf a) ∧
  (∀ w : BitVec 8, w &&& 0xFE#8 = 0x6A#8 → decode w = .ok (.payPass (w.getLsbD 0))) ∧
  (∀ (b : Bit) (s : State) (q payload : List Bit), s.cfg.legal = true →
    s.st = stReadingPayload → s.idx.toNat + 1 = nbits s.cfg s.len →
    s.cfg.hasCrc = true → s.cfg.checkCrc = true → CompletedBits s b q →
    q = payload ++ bitsOf 16 (crc16 (s.len :: pack payload) s.cfg.crcPoly).toNat →
    s.stepIn (.ofBit b) = exec (.payPass b) s) ∧
  (∀ (b : Bit) (s : State) (q : List Bit), CompletedBits s b q → s.cfg.hasCrc = false →
    exec (.payPass b) s = .refused .noTrailer)

/-- R185, R220, R186: PAY.DROP stores the bit, outputs CRC_MISMATCH with the computed and the received
CRC and no payload byte, and returns to the search. What the register `CRC` holds afterwards is
unspecified (R26) and the statement is about every value of it. It is the step of the last buffer bit
when `HAS_CRC = 1`, `CHECK_CRC = 1` and the two differ. MODEL: without a trailer there is no received CRC
(R181) and the operation is refused. -/
def Obligations.PayDropRaisesCrcMismatch : Prop :=
  (∀ (b : Bit) (s : State) (q payload : List Bit) (received : Word) (e : Event),
    CompletedBits s b q → s.cfg.hasCrc = true → q = payload ++ bitsOf 16 received.toNat →
    e = .crcMismatch s.len (crc16 (s.len :: pack payload) s.cfg.crcPoly) received →
    ∃ (v : Word) (n : Nat), exec (.payDrop b) s = .next
      { s with buf := Memory.write s.buf s.idx.toNat b, sr := 0, idx := 0#12, st := 0b00#2,
               crc := v, crcRuns := n, out := some e, sink := s.sink ++ [e] }) ∧
  (∀ (b : Bit) (s t : State), exec (.payDrop b) s = .next t →
    Memory.read t.buf s.idx.toNat = some b ∧
    ∀ a, a ≠ s.idx.toNat → Memory.read t.buf a = Memory.read s.buf a) ∧
  (∀ w : BitVec 8, w &&& 0xFE#8 = 0x6C#8 → decode w = .ok (.payDrop (w.getLsbD 0))) ∧
  (∀ (b : Bit) (s : State) (q payload : List Bit) (received : Word), s.cfg.legal = true →
    s.st = stReadingPayload → s.idx.toNat + 1 = nbits s.cfg s.len →
    s.cfg.hasCrc = true → s.cfg.checkCrc = true → CompletedBits s b q →
    q = payload ++ bitsOf 16 received.toNat →
    crc16 (s.len :: pack payload) s.cfg.crcPoly ≠ received →
    s.stepIn (.ofBit b) = exec (.payDrop b) s) ∧
  (∀ (b : Bit) (s : State) (q : List Bit), CompletedBits s b q → s.cfg.hasCrc = false →
    exec (.payDrop b) s = .refused .noTrailer)

/-- R89 (log entry 15): ILLEGAL is refused, on every path; it is the step of a bit with `ST = 0b11`. RESET and HOLD are
not affected by `ST` (R202, R203). -/
def Obligations.IllegalIsRefused : Prop :=
  (∀ s : State, exec .illegal s = .refused .illegalState) ∧
  (∀ w : BitVec 8, w &&& 0xF0#8 = 0x70#8 → decode w = .ok .illegal) ∧
  (∀ (b : Bit) (s : State), s.cfg.legal = true → s.st = 0b11#2 →
    s.stepIn (.ofBit b) = .refused .illegalState)

/-- MODEL (log entry 4): where the four PAY operations stop. A write to a cell at or above `CAP` finds no
cell; a completion whose allocated cells are not all written reads a cell without a value; one whose
allocated cells reach above `CAP` finds no cell or a cell without a value. R54: no reachable state does
any of this. -/
def Obligations.PayOperationsStopOutsideTheBuffer : Prop :=
  (∀ (b : Bit) (s : State), bufCap s.cfg ≤ s.idx.toNat →
    exec (.payStore b) s = .fault (.noSuchCell s.idx.toNat) ∧
    exec (.payEmit b) s = .fault (.noSuchCell s.idx.toNat) ∧
    exec (.payPass b) s = .fault (.noSuchCell s.idx.toNat) ∧
    exec (.payDrop b) s = .fault (.noSuchCell s.idx.toNat)) ∧
  (∀ (b : Bit) (s : State) (k : Nat), s.idx.toNat < bufCap s.cfg → k < nbits s.cfg s.len →
    k < bufCap s.cfg → k ≠ s.idx.toNat → Memory.read s.buf k = none →
    (∀ i < k, i ≠ s.idx.toNat → (Memory.read s.buf i).isSome) →
    exec (.payEmit b) s = .fault (.unwrittenCell k) ∧
    exec (.payPass b) s = .fault (.unwrittenCell k) ∧
    exec (.payDrop b) s = .fault (.unwrittenCell k)) ∧
  (∀ (b : Bit) (s : State), s.idx.toNat < bufCap s.cfg → bufCap s.cfg < nbits s.cfg s.len →
    (∀ i < bufCap s.cfg, i ≠ s.idx.toNat → (Memory.read s.buf i).isSome) →
    exec (.payEmit b) s = .fault (.noSuchCell (bufCap s.cfg)) ∧
    exec (.payPass b) s = .fault (.noSuchCell (bufCap s.cfg)) ∧
    exec (.payDrop b) s = .fault (.noSuchCell (bufCap s.cfg)))

/-! ### Configuration, reset, the invariant -/

/-- R253: the legal configurations are those with `W >= 1` and `SYNC_PATTERN < 2^W`, whatever the other
four parameters; outside them the step is refused, which is where the model refuses the configuration
(DEDUCED, log entry 14). -/
def Obligations.IllegalConfigurationIsRefused : Prop :=
  (∀ c : Config, c.legal = true ↔ (1 ≤ c.w ∧ c.syncPattern < 2 ^ c.w)) ∧
  (∀ s : State, ¬ (1 ≤ s.cfg.w ∧ s.cfg.syncPattern < 2 ^ s.cfg.w) →
    step s = .refused .illegalConfig)

/-- R33: `ST = SEARCHING`, `SR = 0`, `IDX = 0` after reset, and the defaults of R251 for `W`, `CRC_POLY`
and `MAX_LEN`. -/
def Obligations.ResetStateValues : Prop :=
  State.reset.st = 0b00#2 ∧ State.reset.sr = 0 ∧ State.reset.idx = 0#12 ∧
  State.reset.cfg.w = 16 ∧ State.reset.cfg.crcPoly = 0x8005#16 ∧ State.reset.cfg.maxLen = 255#8 ∧
  Sys2Proof.core.reset = State.reset

/-- R34: the invariant holds of the reset state, with any legal configuration. -/
def Obligations.InvariantHoldsAtReset : Prop :=
  Inv State.reset ∧ ∀ c : Config, c.legal = true → Inv { State.reset with cfg := c }

/-- R34: every step keeps the invariant, from every state that has it. -/
def Obligations.EveryStepKeepsTheInvariant : Prop :=
  ∀ s t : State, Inv s → step s = .next t → Inv t

/-- R201, R223: in a state of the invariant no step faults and none is refused, whatever the input. -/
def Obligations.NoStepStopsUnderTheInvariant : Prop :=
  (∀ s : State, Inv s → ∃ t, step s = .next t) ∧
  (∀ (s : State) (inp : StepInput), Inv s → ∃ t, s.stepIn inp = .next t)

/-! ### The whole machine -/

/-- R200, R204: from SEARCHING no step enters READING_PAYLOAD, from READING_PAYLOAD no step enters
READING_LENGTH, and no step produces `ST = 0b11` from another state. -/
def Obligations.OnlyTheListedEdgesAreTaken : Prop :=
  ∀ s t : State, step s = .next t →
    (s.st = stSearching → t.st ≠ stReadingPayload) ∧
    (s.st = stReadingPayload → t.st ≠ stReadingLength) ∧
    (s.st ≠ stIllegal → t.st ≠ stIllegal)

/-- The writes of R35 over all operations: none writes the configuration (R29); `LEN` is written only by
the three operations that take the eighth length bit (R25); `BUF` only by the four PAY operations, and
there only in cell `IDX` (R52); `CRC` only by PAY.PASS and PAY.DROP; `ST` is left alone by HOLD,
SRCH.SHIFT, LEN.SHIFT and PAY.STORE; `SR` by HOLD and PAY.STORE; `IDX` by HOLD and SRCH.SHIFT. -/
def Obligations.OperationsWriteOnlyWhatTheMatrixLists : Prop :=
  ∀ (i : Instr) (s t : State), exec i s = .next t →
    t.cfg = s.cfg ∧ t.pending = s.pending ∧
    (t.len ≠ s.len → ∃ b, i = .lenOpen b ∨ i = .lenEmpty b ∨ i = .lenOvf b) ∧
    (∀ a, Memory.read t.buf a ≠ Memory.read s.buf a →
      a = s.idx.toNat ∧ ∃ b, i = .payStore b ∨ i = .payEmit b ∨ i = .payPass b ∨ i = .payDrop b) ∧
    ((t.crc ≠ s.crc ∨ t.crcRuns ≠ s.crcRuns) → ∃ b, i = .payPass b ∨ i = .payDrop b) ∧
    (t.st ≠ s.st → i ≠ .hold ∧ ∀ b, i ≠ .srchShift b ∧ i ≠ .lenShift b ∧ i ≠ .payStore b) ∧
    (t.sr ≠ s.sr → i ≠ .hold ∧ ∀ b, i ≠ .payStore b) ∧
    (t.idx ≠ s.idx → i ≠ .hold ∧ ∀ b, i ≠ .srchShift b)

/-- R180, R220, R221: which operation outputs what. A PACKET comes from LEN.EMPTY, PAY.EMIT or PAY.PASS
only, a CRC_MISMATCH from PAY.DROP only, an ALLOC_FAIL from LEN.OVF only; those five always output an
event, every other operation outputs none. The `len` of an event is `LEN` after the step. -/
def Obligations.EventsComeOnlyFromTheirOperations : Prop :=
  ∀ (i : Instr) (s t : State), exec i s = .next t →
    (∀ l p, t.out = some (.packet l p) →
      t.len = l ∧ ∃ b, i = .lenEmpty b ∨ i = .payEmit b ∨ i = .payPass b) ∧
    (∀ l x y, t.out = some (.crcMismatch l x y) → t.len = l ∧ ∃ b, i = .payDrop b) ∧
    (∀ l, t.out = some (.allocFail l) → t.len = l ∧ ∃ b, i = .lenOvf b) ∧
    (t.out = none → i = .reset ∨ i = .hold ∨
      ∃ b, i = .srchShift b ∨ i = .srchSync b ∨ i = .lenShift b ∨ i = .lenOpen b ∨ i = .payStore b)

/-- R180, R225, R257: a step outputs at most one event, and the sink takes exactly what is output, in the
same step (that it always can is the environment's, log entry 17). -/
def Obligations.SinkTakesExactlyTheOutput : Prop :=
  ∀ s t : State, step s = .next t → t.sink = s.sink ++ t.out.toList

/-- R190: with the invariant, the `len` of a PACKET is the number of its payload bytes. -/
def Obligations.PacketLengthIsThePayloadSize : Prop :=
  ∀ (s t : State) (l : Byte) (p : List Byte), Inv s → step s = .next t →
    t.out = some (.packet l p) → p.length = l.toNat

/-- R226, R227, R228: whichever event is output, the step ends in a fresh search. Take any step that
outputs one of the two exceptions and any step that outputs a PACKET, of instances with one
configuration: the states after them agree on everything that is not dead, and on `LEN` if the two
packets have the same length; what is dead (`CRC`, the cells of `BUF`) is left open. From states of the
invariant, both go on to output the same events under every later input, so an exception changes nothing
for later frames. Last, by exec of either operation on one state (log entry 11), PAY.DROP and PAY.PASS
leave the same cells and registers, `CRC` and the model's count apart, which stay open (R26). -/
def Obligations.EveryEventEndsInAFreshSearch : Prop :=
  (∀ s t : State, step s = .next t → t.out ≠ none → FreshSearch t) ∧
  (∀ (s s' t u : State) (e : Event) (l : Byte) (p : List Byte),
    step s = .next t → t.out = some e → e.ok = false →
    step s' = .next u → u.out = some (.packet l p) → s.cfg = s'.cfg →
    t.st = u.st ∧ t.sr = u.sr ∧ t.idx = u.idx ∧ t.cfg = u.cfg ∧ (e.len = l → t.len = u.len) ∧
    (Inv s → Inv s' → ∀ ins : List StepInput, ∃ t' u' es,
      t.runInputs ins = some (t', es) ∧ u.runInputs ins = some (u', es))) ∧
  (∀ (b : Bit) (s t u : State), exec (.payDrop b) s = .next t → exec (.payPass b) s = .next u →
    t = { u with crc := t.crc, crcRuns := t.crcRuns, out := t.out, sink := t.sink })

/-- R79, R221: a length above the default `MAX_LEN = 255` does not exist, so ALLOC_FAIL cannot occur with
it. -/
def Obligations.DefaultBoundNeverOverflows : Prop :=
  ∀ s t : State, s.cfg.maxLen = 255#8 → step s = .next t → ∀ l, t.out ≠ some (.allocFail l)

/-! ### Streams -/

/-- R203: HOLD steps anywhere in a run change neither the events nor the final registers. (The output of
the very last step, the field `out`, is that of a HOLD if the run ends in one.) -/
def Obligations.HoldsAreTransparent : Prop :=
  ∀ (s : State) (ins : List StepInput), s.cfg.legal = true →
    (s.runInputs ins).map (fun r => ({ r.1 with out := none }, r.2))
      = (s.runInputs (ins.filter fun inp => !inp.isHold)).map
          (fun r => ({ r.1 with out := none }, r.2))

/-- R206, the call interface. In a state of the invariant a call with no bits changes nothing, outputs
nothing and returns 0; a call with one bit is the one operation that the dispatch of R201 picks; and any
list of calls, zero-bit calls among them, answers, each call returning the number of its bits, with the
state and the events of the one run over all the bits: the result does not depend on how the stream is cut
into calls. The events are those the sink has taken meanwhile, in order, and the invariant still holds. -/
def Obligations.RunsDoNotDependOnTheCut : Prop :=
  (∀ s : State, Inv s → s.call [] = some (s, [], 0)) ∧
  (∀ (s : State) (b : Bit), Inv s → ∃ i t, dispatch s (.ofBit b) = .ok i ∧ exec i s = .next t ∧
    s.call [b] = some (t, t.out.toList, 1)) ∧
  (∀ (s : State) (qs : List (List Bit)), Inv s → ∃ u es,
    s.calls qs = some (u, es, qs.map List.length) ∧ s.call qs.flatten = some (u, es, qs.flatten.length) ∧
    s.runBits qs.flatten = some (u, es) ∧
    u.sink = s.sink ++ es ∧ u.cfg = s.cfg ∧ u.pending = s.pending ∧ Inv u) ∧
  (∀ (s : State) (q₁ q₂ : List Bit), s.runBits (q₁ ++ q₂)
    = (s.runBits q₁).bind fun r => (r.1.runBits q₂).map fun r' => (r'.1, r.2 ++ r'.2))

/-- R205: from every state of the invariant the block is back in SEARCHING within 2064 bit steps,
whatever the bits. -/
def Obligations.BackInSearchingWithin2064Bits : Prop :=
  ∀ (s : State) (q : List Bit), Inv s → 2064 ≤ q.length →
    ∃ k ≤ 2064, ∃ u es, s.runBits (q.take k) = some (u, es) ∧ u.st = stSearching

/-- R106 (sync invariance): from a fresh search, while no `win_k` is the sync word the block stays in
SEARCHING with `SR = win_n` and outputs nothing; every other register is untouched. -/
def Obligations.SearchGoesOnWithoutAMatch : Prop :=
  ∀ (s : State) (q : List Bit), s.cfg.legal = true → FreshSearch s →
    (∀ k, 1 ≤ k → k ≤ q.length → winVal s.cfg.w (q.take k) ≠ s.cfg.syncPattern) →
    ∃ u, s.runBits q = some (u, []) ∧
      { u with out := none } = { s with sr := winVal s.cfg.w q, out := none }

/-- R105: from a fresh search, sync is declared at the smallest `k >= 1` with `win_k = SYNC_PATTERN`, the
window being taken as if `W` zero bits came before the search (R104). -/
def Obligations.SyncIsDeclaredAtTheFirstMatch : Prop :=
  ∀ (s : State) (q : List Bit), s.cfg.legal = true → FreshSearch s → q ≠ [] →
    (∀ k, 1 ≤ k → k < q.length → winVal s.cfg.w (q.take k) ≠ s.cfg.syncPattern) →
    winVal s.cfg.w q = s.cfg.syncPattern →
    ∃ u, s.runBits q = some (u, []) ∧
      { u with out := none } = { s with sr := 0, idx := 0#12, st := 0b01#2, out := none }

/-- R74, R120: after the sync, the next eight bits are the length, the first received the most
significant, and the value decides between ALLOC_FAIL, the empty packet and the open buffer. -/
def Obligations.EightBitsAreTheLength : Prop :=
  ∀ (s : State) (l : Byte), s.cfg.legal = true → s.st = stReadingLength → s.sr = 0 →
    s.idx = 0#12 →
    ∃ u es, s.runBits (byteBits l) = some (u, es) ∧ u.len = l ∧ u.buf = s.buf ∧ u.cfg = s.cfg ∧
      (s.cfg.maxLen < l → es = [.allocFail l] ∧ FreshSearch u) ∧
      (l ≤ s.cfg.maxLen → nbits s.cfg l = 0 → es = [.packet 0#8 []] ∧ FreshSearch u) ∧
      (l ≤ s.cfg.maxLen → 0 < nbits s.cfg l →
        es = [] ∧ u.st = stReadingPayload ∧ u.idx = 0#12 ∧ u.sr = l.toNat)

/-- R34 (d), R144: while buffer bits that are not the last arrive, they go to the next cells in arrival
order, no event is output, and every other cell and register is as before. -/
def Obligations.PayloadBitsAreStoredInOrder : Prop :=
  ∀ (s : State) (q : List Bit), s.cfg.legal = true → s.st = stReadingPayload →
    s.len.toNat ≤ s.cfg.maxLen.toNat → s.idx.toNat + q.length < nbits s.cfg s.len →
    ∃ u, s.runBits q = some (u, []) ∧
      { u with out := none }
        = { s with buf := u.buf, idx := s.idx + BitVec.ofNat 12 q.length, out := none } ∧
      (∀ k < q.length, Memory.read u.buf (s.idx.toNat + k) = q[k]?) ∧
      (∀ a, (a < s.idx.toNat ∨ s.idx.toNat + q.length ≤ a) →
        Memory.read u.buf a = Memory.read s.buf a)

/-- R187 (frame determinism): from a fresh search, a frame with any payload the bound admits and no
early match makes the block output exactly one event, in the last step, and end in a fresh search: the
payload when nothing is verified or the trailer is the CRC of the length byte and the payload, else the
mismatch. While the sync word itself is fed, `win_k = SYNC_PATTERN >> (W-k)`, so for every nonzero sync
word there is no early match. -/
def Obligations.AFrameGivesExactlyOneEvent : Prop :=
  (∀ (s : State) (payload : List Byte) (t : Word) (e : Event), s.cfg.legal = true →
    FreshSearch s → payload.length ≤ s.cfg.maxLen.toNat → NoEarlyMatch s.cfg →
    e = (if s.cfg.hasCrc = false ∨ s.cfg.checkCrc = false ∨ t = frameCrc s.cfg payload
      then .packet (BitVec.ofNat 8 payload.length) payload
      else .crcMismatch (BitVec.ofNat 8 payload.length) (frameCrc s.cfg payload) t) →
    ∃ u, s.runBits (frameX s.cfg (BitVec.ofNat 8 payload.length) payload t) = some (u, [e]) ∧
      u.out = some e ∧ FreshSearch u ∧ u.cfg = s.cfg) ∧
  (∀ (c : Config) (k : Nat), c.legal = true → k ≤ c.w →
    winVal c.w ((bitsOf c.w c.syncPattern).take k) = c.syncPattern >>> (c.w - k)) ∧
  (∀ c : Config, c.legal = true → c.syncPattern ≠ 0 → NoEarlyMatch c)

/-- R188 (CRC round trip): a well-formed frame, verified, gives its payload unmodified. -/
def Obligations.CrcRoundTrip : Prop :=
  ∀ (s : State) (payload : List Byte), s.cfg.legal = true → FreshSearch s →
    NoEarlyMatch s.cfg → s.cfg.hasCrc = true → s.cfg.checkCrc = true →
    payload.length ≤ s.cfg.maxLen.toNat →
    ∃ u, s.runBits (frame s.cfg payload)
        = some (u, [.packet (BitVec.ofNat 8 payload.length) payload]) ∧ FreshSearch u

/-- R189 (single-bit flip detection): with a polynomial whose bit 0 is 1, a verified frame with one
payload bit flipped and the trailer kept gives CRC_MISMATCH and no PACKET. -/
def Obligations.AFlippedPayloadBitIsDetected : Prop :=
  ∀ (s : State) (payload : List Byte) (k : Nat) (x : Byte) (j : Nat), s.cfg.legal = true →
    FreshSearch s → NoEarlyMatch s.cfg → s.cfg.hasCrc = true → s.cfg.checkCrc = true →
    s.cfg.crcPoly.getLsbD 0 = true → payload.length ≤ s.cfg.maxLen.toNat →
    payload[k]? = some x → j < 8 →
    ∃ u computed, s.runBits (frameX s.cfg (BitVec.ofNat 8 payload.length)
          (payload.set k (x ^^^ (1#8 <<< j))) (frameCrc s.cfg payload))
        = some (u, [.crcMismatch (BitVec.ofNat 8 payload.length) computed (frameCrc s.cfg payload)]) ∧
      computed ≠ frameCrc s.cfg payload ∧ FreshSearch u

/-- R31: two states of the invariant that agree on what is not dead give the same events under every
input sequence, and agree on what is not dead afterwards: no output depends on `CRC`, on `LEN` before it
is written, on `SR` while the payload is read, or on a buffer cell not written for the current packet. -/
def Obligations.DeadStateIsNeverOutput : Prop :=
  ∀ (s t : State) (ins : List StepInput), Inv s → Inv t → SameLive s t →
    ∃ u v es, s.runInputs ins = some (u, es) ∧ t.runInputs ins = some (v, es) ∧ SameLive u v

/-- R190: from a fresh search the first event is at least `max(W - z, 1) + 8` bit steps away, `z` being
the number of leading zeros of the sync word: nine steps, and if bit `n` of the sync word is set, `n + 1`
steps for the sync and eight for the length. -/
def Obligations.EventsKeepTheirDistance : Prop :=
  ∀ (s u : State) (q : List Bit) (es : List Event), s.cfg.legal = true → FreshSearch s →
    s.runBits q = some (u, es) → es ≠ [] →
    9 ≤ q.length ∧ ∀ n, s.cfg.syncPattern.testBit n = true → n + 1 + 8 ≤ q.length

/-! ### The packer and the CRC engine -/

/-- R141: `PACK` makes `n/8` bytes of `n` bits, the earliest of each eight the high bit, and undoes
`bits_8` applied bytewise. -/
def Obligations.PackIsMostSignificantBitFirst : Prop :=
  (∀ (q : List Bit) (n : Nat), q.length = 8 * n → (pack q).length = n) ∧
  (∀ (q : List Bit) (n k : Nat), q.length = 8 * n → k < n →
    ((pack q)[k]?.map BitVec.toNat) = some
      ((q.getD (8 * k) false).toNat * 128 + (q.getD (8 * k + 1) false).toNat * 64
        + (q.getD (8 * k + 2) false).toNat * 32 + (q.getD (8 * k + 3) false).toNat * 16
        + (q.getD (8 * k + 4) false).toNat * 8 + (q.getD (8 * k + 5) false).toNat * 4
        + (q.getD (8 * k + 6) false).toNat * 2 + (q.getD (8 * k + 7) false).toNat)) ∧
  (∀ bs : List Byte, pack (bytesBits bs) = bs)

/-- R161, in unsigned integers: the register is shifted left with the shifted-out bit dropped, and the
polynomial is added in GF(2) when the old bit 15 and the message bit differ. -/
def Obligations.CrcBitUpdate : Prop :=
  ∀ (reg : Word) (d : Bit) (poly : Word),
    (crcBit reg d poly).toNat
      = if decide (32768 ≤ reg.toNat) = d then (2 * reg.toNat) % 65536
        else ((2 * reg.toNat) % 65536) ^^^ poly.toNat

/-- R162, R163: the byte update is the one-bit update over the byte's bits, bit 7 first, each bit once;
the CRC of a message is the byte update run from `0xFFFF` over its bytes in order. In one: the one-bit
update run over the message's bits in wire order. -/
def Obligations.CrcRunsOverTheMessageBits : Prop :=
  (∀ (reg : Word) (x : Byte) (poly : Word),
    crcByte reg x poly = (bitsOf 8 x.toNat).foldl (fun r d => crcBit r d poly) reg) ∧
  (∀ poly : Word, crc16 [] poly = 0xFFFF#16) ∧
  (∀ (msg : List Byte) (x : Byte) (poly : Word), crc16 (msg ++ [x]) poly = crcByte (crc16 msg poly) x poly) ∧
  (∀ (msg : List Byte) (poly : Word),
    crc16 msg poly = (msg.flatMap fun x => bitsOf 8 x.toNat).foldl
      (fun reg d => crcBit reg d poly) 0xFFFF#16)

/-- R165 (a), the residue law: a message followed by its CRC, high byte first, has the CRC 0. -/
def Obligations.CrcResidueIsZero : Prop :=
  ∀ (msg : List Byte) (poly t : Word), t = crc16 msg poly →
    crc16 (msg ++ [t.extractLsb' 8 8, t.extractLsb' 0 8]) poly = 0#16

/-- R165 (b): for a fixed polynomial and length the CRC is affine over GF(2). -/
def Obligations.CrcIsAffine : Prop :=
  ∀ (a b c : List Byte) (poly : Word), a.length = b.length → b.length = c.length →
    crc16 a poly ^^^ crc16 b poly ^^^ crc16 c poly
      = crc16 (List.zipWith (· ^^^ ·) (List.zipWith (· ^^^ ·) a b) c) poly

/-- R167: with `CRC_POLY = 0` the CRC of two or more bytes is 0 whatever they are. -/
def Obligations.ZeroPolynomialGivesZero : Prop :=
  ∀ msg : List Byte, 2 ≤ msg.length → crc16 msg 0x0000#16 = 0#16

/-- R167: with bit 0 of the polynomial set, flipping any one bit of a message changes its CRC. -/
def Obligations.CrcDetectsEverySingleBitFlip : Prop :=
  ∀ (msg : List Byte) (poly : Word) (k : Nat) (x : Byte) (j : Nat), poly.getLsbD 0 = true →
    msg[k]? = some x → j < 8 → crc16 (msg.set k (x ^^^ (1#8 <<< j))) poly ≠ crc16 msg poly

/-! ### The ports and the stimulus notation -/

/-- R81, R82: the port view of an event: the kind is 0, 1 or 2, `ev_ok` is 1 exactly for kind 0, the
payload bytes are at the port for a PACKET only and the two CRC values for a CRC_MISMATCH only, and
`ev_valid` is 1 in a step with an event. -/
def Obligations.EventPortFields : Prop :=
  (∀ e : Event, e.kind ≠ 0b11#2 ∧ (e.ok = true ↔ e.kind = 0b00#2)) ∧
  (∀ (l : Byte) (p : List Byte) (k : Nat), (Event.packet l p).kind = 0b00#2 ∧
    (Event.packet l p).len = l ∧ (Event.packet l p).data k = p[k]? ∧
    (Event.packet l p).crcs = none) ∧
  (∀ (l : Byte) (x y : Word) (k : Nat), (Event.crcMismatch l x y).kind = 0b01#2 ∧
    (Event.crcMismatch l x y).len = l ∧ (Event.crcMismatch l x y).data k = none ∧
    (Event.crcMismatch l x y).crcs = some (x, y)) ∧
  (∀ (l : Byte) (k : Nat), (Event.allocFail l).kind = 0b10#2 ∧ (Event.allocFail l).len = l ∧
    (Event.allocFail l).data k = none ∧ (Event.allocFail l).crcs = none) ∧
  (∀ s : State, s.evValid = true ↔ s.out ≠ none)

/-- R71, R57, R53: where each field of a frame lies in the order of arrival and which bit stands there:
the sync word, the length, the payload byte by byte and the trailer, each most significant bit first;
and how many bits there are. -/
def Obligations.FrameLayout : Prop :=
  ∀ (c : Config) (l : Byte) (payload : List Byte) (t : Word),
    (frameX c l payload t).length
      = c.w + 8 + 8 * payload.length + (if c.hasCrc then 16 else 0) ∧
    (∀ k < c.w, (frameX c l payload t)[k]? = some (c.syncPattern.testBit (c.w - 1 - k))) ∧
    (∀ k < 8, (frameX c l payload t)[c.w + k]? = some (l.getLsbD (7 - k))) ∧
    (∀ k j x, payload[k]? = some x → j < 8 →
      (frameX c l payload t)[c.w + 8 + (8 * k + j)]? = some (x.getLsbD (7 - j))) ∧
    (c.hasCrc = true → ∀ k < 16,
      (frameX c l payload t)[c.w + 8 + 8 * payload.length + k]? = some (t.getLsbD (15 - k)))

/-- R86: the line `FRAME` is the line `BITS` with the sync word followed by the line `HEX` with the
length, the payload and, with a trailer, its two CRC bytes, high byte first. -/
def Obligations.FrameLineExpandsToBitsAndHex : Prop :=
  ∀ (c : Config) (payload : List Byte),
    (Line.frame payload).steps c
      = (Line.bits (bitsOf c.w c.syncPattern)).steps c
        ++ (Line.hex (BitVec.ofNat 8 payload.length :: payload
            ++ if c.hasCrc then [(frameCrc c payload).extractLsb' 8 8,
                (frameCrc c payload).extractLsb' 0 8] else [])).steps c
end

