-- ==== Sys2Proof/Laws/State.lean ====
section
/-! SUPPORT. One lemma per field and per register update, each true by definition, so that no proof
unfolds an update. -/

namespace Sys2Proof.Machine

/-! The four codes of `ST` differ. -/
@[simp] theorem stSearching_ne_stReadingLength : ¬ stSearching = stReadingLength := by decide
@[simp] theorem stSearching_ne_stReadingPayload : ¬ stSearching = stReadingPayload := by decide
@[simp] theorem stSearching_ne_stIllegal : ¬ stSearching = stIllegal := by decide
@[simp] theorem stReadingLength_ne_stSearching : ¬ stReadingLength = stSearching := by decide
@[simp] theorem stReadingLength_ne_stReadingPayload : ¬ stReadingLength = stReadingPayload := by decide
@[simp] theorem stReadingLength_ne_stIllegal : ¬ stReadingLength = stIllegal := by decide
@[simp] theorem stReadingPayload_ne_stSearching : ¬ stReadingPayload = stSearching := by decide
@[simp] theorem stReadingPayload_ne_stReadingLength : ¬ stReadingPayload = stReadingLength := by decide
@[simp] theorem stReadingPayload_ne_stIllegal : ¬ stReadingPayload = stIllegal := by decide
@[simp] theorem stIllegal_ne_stSearching : ¬ stIllegal = stSearching := by decide
@[simp] theorem stIllegal_ne_stReadingLength : ¬ stIllegal = stReadingLength := by decide
@[simp] theorem stIllegal_ne_stReadingPayload : ¬ stIllegal = stReadingPayload := by decide

variable (s : State)

@[simp] theorem State.setSr_st (v : Nat) : (s.setSr v).st = s.st := rfl
@[simp] theorem State.setSr_sr (v : Nat) : (s.setSr v).sr = v % 2 ^ srWidth s.cfg := rfl
@[simp] theorem State.setSr_idx (v : Nat) : (s.setSr v).idx = s.idx := rfl
@[simp] theorem State.setSr_len (v : Nat) : (s.setSr v).len = s.len := rfl
@[simp] theorem State.setSr_buf (v : Nat) : (s.setSr v).buf = s.buf := rfl
@[simp] theorem State.setSr_crc (v : Nat) : (s.setSr v).crc = s.crc := rfl
@[simp] theorem State.setSr_cfg (v : Nat) : (s.setSr v).cfg = s.cfg := rfl
@[simp] theorem State.setSr_crcRuns (v : Nat) : (s.setSr v).crcRuns = s.crcRuns := rfl
@[simp] theorem State.setSr_pending (v : Nat) : (s.setSr v).pending = s.pending := rfl
@[simp] theorem State.setSr_out (v : Nat) : (s.setSr v).out = s.out := rfl
@[simp] theorem State.setSr_sink (v : Nat) : (s.setSr v).sink = s.sink := rfl

@[simp] theorem State.quiet_st : (s.quiet).st = s.st := rfl
@[simp] theorem State.quiet_sr : (s.quiet).sr = s.sr := rfl
@[simp] theorem State.quiet_idx : (s.quiet).idx = s.idx := rfl
@[simp] theorem State.quiet_len : (s.quiet).len = s.len := rfl
@[simp] theorem State.quiet_buf : (s.quiet).buf = s.buf := rfl
@[simp] theorem State.quiet_crc : (s.quiet).crc = s.crc := rfl
@[simp] theorem State.quiet_cfg : (s.quiet).cfg = s.cfg := rfl
@[simp] theorem State.quiet_crcRuns : (s.quiet).crcRuns = s.crcRuns := rfl
@[simp] theorem State.quiet_pending : (s.quiet).pending = s.pending := rfl
@[simp] theorem State.quiet_out : (s.quiet).out = none := rfl
@[simp] theorem State.quiet_sink : (s.quiet).sink = s.sink := rfl

@[simp] theorem State.emit_st (e : Event) : (s.emit e).st = s.st := rfl
@[simp] theorem State.emit_sr (e : Event) : (s.emit e).sr = s.sr := rfl
@[simp] theorem State.emit_idx (e : Event) : (s.emit e).idx = s.idx := rfl
@[simp] theorem State.emit_len (e : Event) : (s.emit e).len = s.len := rfl
@[simp] theorem State.emit_buf (e : Event) : (s.emit e).buf = s.buf := rfl
@[simp] theorem State.emit_crc (e : Event) : (s.emit e).crc = s.crc := rfl
@[simp] theorem State.emit_cfg (e : Event) : (s.emit e).cfg = s.cfg := rfl
@[simp] theorem State.emit_crcRuns (e : Event) : (s.emit e).crcRuns = s.crcRuns := rfl
@[simp] theorem State.emit_pending (e : Event) : (s.emit e).pending = s.pending := rfl
@[simp] theorem State.emit_out (e : Event) : (s.emit e).out = some e := rfl
@[simp] theorem State.emit_sink (e : Event) : (s.emit e).sink = s.sink ++ [e] := rfl

@[simp] theorem State.freshSearch_st : (s.freshSearch).st = stSearching := rfl
@[simp] theorem State.freshSearch_sr : (s.freshSearch).sr = 0 := rfl
@[simp] theorem State.freshSearch_idx : (s.freshSearch).idx = 0#12 := rfl
@[simp] theorem State.freshSearch_len : (s.freshSearch).len = s.len := rfl
@[simp] theorem State.freshSearch_buf : (s.freshSearch).buf = s.buf := rfl
@[simp] theorem State.freshSearch_crc : (s.freshSearch).crc = s.crc := rfl
@[simp] theorem State.freshSearch_cfg : (s.freshSearch).cfg = s.cfg := rfl
@[simp] theorem State.freshSearch_crcRuns : (s.freshSearch).crcRuns = s.crcRuns := rfl
@[simp] theorem State.freshSearch_pending : (s.freshSearch).pending = s.pending := rfl
@[simp] theorem State.freshSearch_out : (s.freshSearch).out = s.out := rfl
@[simp] theorem State.freshSearch_sink : (s.freshSearch).sink = s.sink := rfl

@[simp] theorem State.raise_st (e : Event) : (s.raise e).st = stSearching := rfl
@[simp] theorem State.raise_sr (e : Event) : (s.raise e).sr = 0 := rfl
@[simp] theorem State.raise_idx (e : Event) : (s.raise e).idx = 0#12 := rfl
@[simp] theorem State.raise_len (e : Event) : (s.raise e).len = s.len := rfl
@[simp] theorem State.raise_buf (e : Event) : (s.raise e).buf = s.buf := rfl
@[simp] theorem State.raise_crc (e : Event) : (s.raise e).crc = s.crc := rfl
@[simp] theorem State.raise_cfg (e : Event) : (s.raise e).cfg = s.cfg := rfl
@[simp] theorem State.raise_crcRuns (e : Event) : (s.raise e).crcRuns = s.crcRuns := rfl
@[simp] theorem State.raise_pending (e : Event) : (s.raise e).pending = s.pending := rfl
@[simp] theorem State.raise_out (e : Event) : (s.raise e).out = some e := rfl
@[simp] theorem State.raise_sink (e : Event) : (s.raise e).sink = s.sink ++ [e] := rfl

@[simp] theorem State.crcEngineRan_st : (s.crcEngineRan).st = s.st := rfl
@[simp] theorem State.crcEngineRan_sr : (s.crcEngineRan).sr = s.sr := rfl
@[simp] theorem State.crcEngineRan_idx : (s.crcEngineRan).idx = s.idx := rfl
@[simp] theorem State.crcEngineRan_len : (s.crcEngineRan).len = s.len := rfl
@[simp] theorem State.crcEngineRan_buf : (s.crcEngineRan).buf = s.buf := rfl
@[simp] theorem State.crcEngineRan_crc : (s.crcEngineRan).crc = Config.freeCrc s.crcRuns := rfl
@[simp] theorem State.crcEngineRan_cfg : (s.crcEngineRan).cfg = s.cfg := rfl
@[simp] theorem State.crcEngineRan_crcRuns : (s.crcEngineRan).crcRuns = s.crcRuns + 1 := rfl
@[simp] theorem State.crcEngineRan_pending : (s.crcEngineRan).pending = s.pending := rfl
@[simp] theorem State.crcEngineRan_out : (s.crcEngineRan).out = s.out := rfl
@[simp] theorem State.crcEngineRan_sink : (s.crcEngineRan).sink = s.sink := rfl

@[simp] theorem State.takeInput_st : (s.takeInput).st = s.st := rfl
@[simp] theorem State.takeInput_sr : (s.takeInput).sr = s.sr := rfl
@[simp] theorem State.takeInput_idx : (s.takeInput).idx = s.idx := rfl
@[simp] theorem State.takeInput_len : (s.takeInput).len = s.len := rfl
@[simp] theorem State.takeInput_buf : (s.takeInput).buf = s.buf := rfl
@[simp] theorem State.takeInput_crc : (s.takeInput).crc = s.crc := rfl
@[simp] theorem State.takeInput_cfg : (s.takeInput).cfg = s.cfg := rfl
@[simp] theorem State.takeInput_crcRuns : (s.takeInput).crcRuns = s.crcRuns := rfl
@[simp] theorem State.takeInput_pending : (s.takeInput).pending = s.pending.tail := rfl
@[simp] theorem State.takeInput_out : (s.takeInput).out = s.out := rfl
@[simp] theorem State.takeInput_sink : (s.takeInput).sink = s.sink := rfl

end Sys2Proof.Machine
end

