-- ==== Sys2Proof/Laws/Memory.lean ====
section
/-! SUPPORT. The laws of the payload buffer: read after write, what a write leaves alone, the canonical
form, and what each buffer access can answer. -/

namespace Sys2Proof.Machine

/-- A written cell reads as what was written. -/
@[simp] theorem Memory.read_write_same (m : Memory) (a : Nat) (v : Bit) :
    Memory.read (Memory.write m a v) a = some v := by
  induction m with
  | nil => simp [Memory.write, Memory.read]
  | cons kx m ih =>
    obtain ⟨k, x⟩ := kx
    simp only [Memory.write]
    split
    · simp [Memory.read]
    · split
      · simp [Memory.read]
      · simp [Memory.read, ih, show ¬ k = a by omega]

/-- A write leaves every other cell alone. -/
theorem Memory.read_write_other (m : Memory) {a i : Nat} (v : Bit) (h : i ≠ a) :
    Memory.read (Memory.write m a v) i = Memory.read m i := by
  induction m with
  | nil => simp [Memory.write, Memory.read, Ne.symm h]
  | cons kx m ih =>
    obtain ⟨k, x⟩ := kx
    simp only [Memory.write]
    split
    · simp [Memory.read, Ne.symm h]
    · split
      · subst_vars; simp [Memory.read, Ne.symm h]
      · simp [Memory.read, ih]

/-- Both cases at once. -/
theorem Memory.read_write (m : Memory) (a i : Nat) (v : Bit) :
    Memory.read (Memory.write m a v) i = if i = a then some v else Memory.read m i := by
  split
  · subst_vars; simp
  · exact Memory.read_write_other m v ‹_›

/-- A write at or above a lower bound of the indices keeps that bound and the rising order. -/
theorem Memory.risesFrom_write (m : Memory) (lo a : Nat) (v : Bit) (ha : lo ≤ a)
    (h : Memory.risesFrom lo m = true) : Memory.risesFrom lo (Memory.write m a v) = true := by
  induction m generalizing lo with
  | nil => simp [Memory.write, Memory.risesFrom, ha]
  | cons kx m ih =>
    obtain ⟨k, x⟩ := kx
    simp only [Memory.risesFrom, Bool.and_eq_true, decide_eq_true_eq] at h
    simp only [Memory.write]
    split
    · simp only [Memory.risesFrom, Bool.and_eq_true, decide_eq_true_eq]
      exact ⟨ha, by omega, h.2⟩
    · split
      · subst_vars; simp [Memory.risesFrom, h]
      · simp only [Memory.risesFrom, Bool.and_eq_true, decide_eq_true_eq]
        exact ⟨h.1, ih (k + 1) (by omega) h.2⟩

/-- Writing a cell keeps the canonical form. -/
theorem Memory.wf_write (m : Memory) (a : Nat) (v : Bit) (h : Memory.wf m = true) :
    Memory.wf (Memory.write m a v) = true :=
  Memory.risesFrom_write m 0 a v (Nat.zero_le a) h

/-- Writing a run of cells keeps the canonical form. -/
theorem Memory.wf_writeBits (m : Memory) (i : Nat) (q : List Bit) (h : Memory.wf m = true) :
    Memory.wf (Memory.writeBits m i q) = true := by
  induction q generalizing m i with
  | nil => exact h
  | cons b q ih => exact ih _ _ (Memory.wf_write m i b h)

/-- What a run of writes leaves in every cell. -/
theorem Memory.read_writeBits (m : Memory) (i a : Nat) (q : List Bit) :
    Memory.read (Memory.writeBits m i q) a
      = if i ≤ a ∧ a < i + q.length then q[a - i]? else Memory.read m a := by
  induction q generalizing m i with
  | nil => simp [Memory.writeBits]
  | cons b q ih =>
    simp only [Memory.writeBits, ih, Memory.read_write, List.length_cons]
    by_cases h : a = i
    · subst h; simp
    · by_cases h' : i + 1 ≤ a ∧ a < i + 1 + q.length
      · rw [if_pos h', if_pos (by omega), show a - i = (a - (i + 1)) + 1 by omega]; simp
      · rw [if_neg h', if_neg h, if_neg (by omega)]

/-- Reset memory, in which nothing is written, has the canonical form. -/
theorem Memory.wf_reset : Memory.wf State.reset.buf = true := rfl

/-- Everything `memWrite` can do: store in a cell of the buffer, or fault where there is none. -/
theorem State.memWrite_cases (s : State) (i : Nat) (v : Bit) :
    (i < bufCap s.cfg ∧ s.memWrite i v = .ok { s with buf := Memory.write s.buf i v }) ∨
    (bufCap s.cfg ≤ i ∧ s.memWrite i v = .error (.noSuchCell i)) := by
  unfold State.memWrite
  split
  · exact .inl ⟨‹_›, rfl⟩
  · exact .inr ⟨by omega, rfl⟩

/-- `memWrite` to a cell of the buffer. -/
theorem State.memWrite_ok (s : State) {i : Nat} (v : Bit) (h : i < bufCap s.cfg) :
    s.memWrite i v = .ok { s with buf := Memory.write s.buf i v } := if_pos h

/-- `memWrite` to no cell. -/
theorem State.memWrite_error (s : State) {i : Nat} (v : Bit) (h : bufCap s.cfg ≤ i) :
    s.memWrite i v = .error (.noSuchCell i) := if_neg (by omega)

/-- Everything `memRead` can do. -/
theorem State.memRead_cases (s : State) (i : Nat) :
    (∃ v, i < bufCap s.cfg ∧ Memory.read s.buf i = some v ∧ s.memRead i = .ok v) ∨
    (i < bufCap s.cfg ∧ Memory.read s.buf i = none ∧ s.memRead i = .error (.unwrittenCell i)) ∨
    (bufCap s.cfg ≤ i ∧ s.memRead i = .error (.noSuchCell i)) := by
  unfold State.memRead
  split
  · cases h : Memory.read s.buf i with
    | none => exact .inr (.inl ⟨‹_›, rfl, rfl⟩)
    | some v => exact .inl ⟨v, ‹_›, rfl, rfl⟩
  · exact .inr (.inr ⟨by omega, rfl⟩)

/-- `memReadFrom` answers a list exactly when every cell of the range exists and is written, and the
list is what they hold. -/
theorem State.memReadFrom_eq_ok (s : State) (i n : Nat) (q : List Bit) :
    s.memReadFrom i n = .ok q ↔
      q.length = n ∧ (0 < n → i + n ≤ bufCap s.cfg) ∧
        ∀ k < n, Memory.read s.buf (i + k) = q[k]? := by
  induction n generalizing i q with
  | zero =>
    simp only [State.memReadFrom, Except.ok.injEq]
    exact ⟨fun h => by subst h; simp, fun h => (List.length_eq_zero_iff.mp h.1).symm⟩
  | succ n ih =>
    simp only [State.memReadFrom]
    rcases s.memRead_cases i with ⟨v, hi, hv, he⟩ | ⟨hi, hv, he⟩ | ⟨hi, he⟩
    · rw [he]
      cases hr : s.memReadFrom (i + 1) n with
      | error f =>
        simp only [reduceCtorEq, false_iff]
        rintro ⟨hl, hc, hk⟩
        have : s.memReadFrom (i + 1) n = .ok q.tail := by
          rw [ih]
          refine ⟨by simp [hl], fun _ => by have := hc (by omega); omega, fun k hk' => ?_⟩
          have := hk (k + 1) (by omega)
          rw [show i + 1 + k = i + (k + 1) by omega, this]
          cases q <;> simp
        simp [hr] at this
      | ok vs =>
        obtain ⟨hl, hc, hk⟩ := (ih (i + 1) vs).mp hr
        simp only [Except.ok.injEq]
        constructor
        · rintro rfl
          refine ⟨by simp [hl], fun _ => ?_, fun k hk' => ?_⟩
          · rcases Nat.eq_zero_or_pos n with h0 | h0
            · omega
            · have := hc h0; omega
          · cases k with
            | zero => simpa using hv
            | succ k =>
              have := hk k (by omega)
              rw [show i + (k + 1) = i + 1 + k by omega, this]; simp
        · rintro ⟨hl', hc', hk'⟩
          apply List.ext_getElem?
          intro k
          by_cases hkn : k < n + 1
          · cases k with
            | zero => rw [← hk' 0 (by omega)]; simpa using hv.symm
            | succ k =>
              rw [← hk' (k + 1) hkn, show i + (k + 1) = i + 1 + k by omega, hk k (by omega)]; simp
          · rw [List.getElem?_eq_none (by simp; omega), List.getElem?_eq_none (by omega)]
    · rw [he]
      simp only [reduceCtorEq, false_iff]
      rintro ⟨hl, -, hk⟩
      have := hk 0 (by omega)
      rw [Nat.add_zero, hv] at this
      cases q <;> simp at this hl
    · rw [he]
      simp only [reduceCtorEq, false_iff]
      rintro ⟨-, hc, -⟩
      have := hc (by omega)
      omega

end Sys2Proof.Machine
end

