-- ==== Sys2Proof/Laws/Operands.lean ====
section
/-! SUPPORT. The laws of the operand values: the width of the window, the size of a packet, and what a
completion can answer. -/

namespace Sys2Proof.Machine

theorem legal_iff (c : Config) : c.legal = true ↔ 1 ≤ c.w ∧ c.syncPattern < 2 ^ c.w := by
  simp [Config.legal]

/-- The window in unsigned integers: the old window without its top bit, doubled, plus the bit. -/
theorem State.window_eq (s : State) (b : Bit) (h : 1 ≤ s.cfg.w) :
    s.window b = 2 * s.sr % 2 ^ s.cfg.w + b.toNat := by
  obtain ⟨n, hn⟩ : ∃ n, s.cfg.w = n + 1 := ⟨s.cfg.w - 1, by omega⟩
  have h1 : (s.sr <<< 1) &&& maskW s.cfg = 2 * s.sr % 2 ^ s.cfg.w := by
    rw [maskW, Nat.and_two_pow_sub_one_eq_mod, Nat.shiftLeft_eq]; ring_nf
  have h2 : 2 * s.sr % 2 ^ s.cfg.w = 2 * (s.sr % 2 ^ n) := by
    rw [hn, pow_succ, mul_comm (2 ^ n) 2, Nat.mul_mod_mul_left]
  rw [State.window, h1, h2]
  have := Nat.two_pow_add_eq_or_of_lt (i := 1) (b := b.toNat) (by cases b <;> simp)
    (s.sr % 2 ^ n)
  simpa using this.symm

/-- R101: the window has `W` bits, whatever `SR` held. -/
theorem State.window_lt (s : State) (b : Bit) (h : 1 ≤ s.cfg.w) :
    s.window b < 2 ^ s.cfg.w := by
  obtain ⟨n, hn⟩ : ∃ n, s.cfg.w = n + 1 := ⟨s.cfg.w - 1, by omega⟩
  have h2 : 2 * s.sr % 2 ^ s.cfg.w = 2 * (s.sr % 2 ^ n) := by
    rw [hn, pow_succ, mul_comm (2 ^ n) 2, Nat.mul_mod_mul_left]
  have h3 := Nat.mod_lt s.sr (show 0 < 2 ^ n by positivity)
  rw [s.window_eq b h, h2, hn, pow_succ]
  cases b <;> simp <;> omega

/-- The shifted length register in unsigned integers. -/
theorem State.lenShifted_eq (s : State) (b : Bit) : s.lenShifted b = 2 * s.sr + b.toNat := by
  have := Nat.two_pow_add_eq_or_of_lt (i := 1) (b := b.toNat) (by cases b <;> simp) s.sr
  rw [State.lenShifted, Nat.shiftLeft_eq, mul_comm, pow_one]
  simpa using this.symm

/-- A packet of a length the bound admits fits the buffer (R54). -/
theorem nbits_le_bufCap (c : Config) (l : Byte) (h : l.toNat ≤ c.maxLen.toNat) :
    nbits c l ≤ bufCap c := by
  unfold nbits bufCap; split <;> omega

/-- No packet has more than 2056 bits (R7). -/
theorem nbits_le (c : Config) (l : Byte) : nbits c l ≤ 2056 := by
  have := l.isLt; unfold nbits; split <;> omega

/-- Everything a completion can answer when it does not fault: the bit stored, and the packed bytes of
the whole allocated buffer. -/
theorem State.completion_eq_ok (s : State) (b : Bit) (r : State × List Byte) :
    s.completion b = .ok r ↔
      ∃ q, CompletedBits s b q ∧
        r = ({ s with buf := Memory.write s.buf s.idx.toNat b }, pack q) := by
  unfold State.completion
  rcases s.memWrite_cases s.idx.toNat b with ⟨hi, he⟩ | ⟨hi, he⟩
  · rw [he]
    simp only
    cases hr : State.memReadFrom
        { s with buf := Memory.write s.buf s.idx.toNat b } 0 (nbits s.cfg s.len) with
    | error f =>
      simp only [reduceCtorEq, false_iff, not_exists]
      rintro q ⟨hq, -⟩
      have := (State.memReadFrom_eq_ok { s with buf := Memory.write s.buf s.idx.toNat b } 0
        (nbits s.cfg s.len) q).mpr ⟨hq.length, fun _ => by simpa using hq.bufInCap,
          fun k hk => by rw [Nat.zero_add, Memory.read_write]; exact (hq.bits k hk).symm⟩
      simp [hr] at this
    | ok q =>
      obtain ⟨hl, hc, hk⟩ := (State.memReadFrom_eq_ok _ _ _ _).mp hr
      simp only [Except.ok.injEq]
      have hq : CompletedBits s b q :=
        ⟨hi, by rcases Nat.eq_zero_or_pos (nbits s.cfg s.len) with h0 | h0
                · omega
                · simpa using hc h0, hl,
          fun k hk' => by have := hk k hk'; rw [Nat.zero_add, Memory.read_write] at this; exact this.symm⟩
      constructor
      · rintro rfl; exact ⟨q, hq, rfl⟩
      · rintro ⟨q', hq', rfl⟩
        have : q = q' := by
          apply List.ext_getElem?
          intro k
          by_cases hk : k < nbits s.cfg s.len
          · rw [hq.bits k hk, hq'.bits k hk]
          · rw [List.getElem?_eq_none (by have := hq.length; omega),
              List.getElem?_eq_none (by have := hq'.length; omega)]
        rw [this]
  · rw [he]
    simp only [reduceCtorEq, false_iff, not_exists]
    rintro q ⟨hq, -⟩
    have := hq.idxInCap
    omega

/-- A completion whose cells are all there answers. -/
theorem CompletedBits.completion {s : State} {b : Bit} {q : List Bit} (h : CompletedBits s b q) :
    s.completion b = .ok ({ s with buf := Memory.write s.buf s.idx.toNat b }, pack q) :=
  (s.completion_eq_ok b _).mpr ⟨q, h, rfl⟩

/-- In a state of the invariant every buffer bit that completes the packet finds all its cells. -/
theorem Inv.completedBits {s : State} (h : Inv s) (hst : s.st = stReadingPayload)
    (hl : s.idx.toNat + 1 = nbits s.cfg s.len) (b : Bit) : ∃ q, CompletedBits s b q := by
  obtain ⟨hm, -, hi, hw⟩ := h.readingPayload hst
  have hcap := nbits_le_bufCap s.cfg s.len hm
  refine ⟨(List.range (nbits s.cfg s.len)).map fun i =>
    if i = s.idx.toNat then b else (Memory.read s.buf i).getD false, by omega, hcap, by simp, ?_⟩
  intro i hin
  rw [List.getElem?_map, List.getElem?_range hin]
  simp only [Option.map_some]
  split
  · rfl
  · obtain ⟨v, hv⟩ := Option.isSome_iff_exists.mp (hw i (by omega))
    simp [hv]

end Sys2Proof.Machine
end

