-- ==== Sys2Proof/Laws/PerInstr.lean ====
section
/-! SUPPORT. Per operation: the row of the opcode table its selector word belongs to. -/

/-- The selector word of the operation belongs to exactly one row of the table of R80, that row gives
the operation back with its operand, and every bit of the word that is neither fixed by the row nor the
operand bit is 0. -/
def Sys2Proof.Laws.RowEncoding.Statement (i : Sys2Proof.Instr) : Prop :=
  ∃ r, Sys2Proof.selectorTable.filter (·.matches (Sys2Proof.encode i)) = [r] ∧
    r.op ((Sys2Proof.encode i).getLsbD 0) = i ∧
    Sys2Proof.encode i &&& ~~~(r.mask ||| 1#8) = 0#8

theorem Sys2Proof.Laws.RowEncoding.reset : Sys2Proof.Laws.RowEncoding.Statement .reset :=
  ⟨_, rfl, rfl, rfl⟩

theorem Sys2Proof.Laws.RowEncoding.hold : Sys2Proof.Laws.RowEncoding.Statement .hold :=
  ⟨_, rfl, rfl, rfl⟩

theorem Sys2Proof.Laws.RowEncoding.srchShift (b : Sys2Proof.Bit) :
    Sys2Proof.Laws.RowEncoding.Statement (.srchShift b) := by
  cases b <;> exact ⟨_, rfl, rfl, rfl⟩

theorem Sys2Proof.Laws.RowEncoding.srchSync (b : Sys2Proof.Bit) :
    Sys2Proof.Laws.RowEncoding.Statement (.srchSync b) := by
  cases b <;> exact ⟨_, rfl, rfl, rfl⟩

theorem Sys2Proof.Laws.RowEncoding.lenShift (b : Sys2Proof.Bit) :
    Sys2Proof.Laws.RowEncoding.Statement (.lenShift b) := by
  cases b <;> exact ⟨_, rfl, rfl, rfl⟩

theorem Sys2Proof.Laws.RowEncoding.lenOpen (b : Sys2Proof.Bit) :
    Sys2Proof.Laws.RowEncoding.Statement (.lenOpen b) := by
  cases b <;> exact ⟨_, rfl, rfl, rfl⟩

theorem Sys2Proof.Laws.RowEncoding.lenEmpty (b : Sys2Proof.Bit) :
    Sys2Proof.Laws.RowEncoding.Statement (.lenEmpty b) := by
  cases b <;> exact ⟨_, rfl, rfl, rfl⟩

theorem Sys2Proof.Laws.RowEncoding.lenOvf (b : Sys2Proof.Bit) :
    Sys2Proof.Laws.RowEncoding.Statement (.lenOvf b) := by
  cases b <;> exact ⟨_, rfl, rfl, rfl⟩

theorem Sys2Proof.Laws.RowEncoding.payStore (b : Sys2Proof.Bit) :
    Sys2Proof.Laws.RowEncoding.Statement (.payStore b) := by
  cases b <;> exact ⟨_, rfl, rfl, rfl⟩

theorem Sys2Proof.Laws.RowEncoding.payEmit (b : Sys2Proof.Bit) :
    Sys2Proof.Laws.RowEncoding.Statement (.payEmit b) := by
  cases b <;> exact ⟨_, rfl, rfl, rfl⟩

theorem Sys2Proof.Laws.RowEncoding.payPass (b : Sys2Proof.Bit) :
    Sys2Proof.Laws.RowEncoding.Statement (.payPass b) := by
  cases b <;> exact ⟨_, rfl, rfl, rfl⟩

theorem Sys2Proof.Laws.RowEncoding.payDrop (b : Sys2Proof.Bit) :
    Sys2Proof.Laws.RowEncoding.Statement (.payDrop b) := by
  cases b <;> exact ⟨_, rfl, rfl, rfl⟩

theorem Sys2Proof.Laws.RowEncoding.illegal : Sys2Proof.Laws.RowEncoding.Statement .illegal :=
  ⟨_, rfl, rfl, rfl⟩
end

