-- ==== Sys2Proof/Laws/Step.lean ====
section
/-! SUPPORT. What a step can do, said once: which operation each selector word of R80 names, which
conditions select each operation, and what each operation leaves. -/

namespace Sys2Proof.Machine

section Decode
theorem decode_reset : ∀ (vld : Bit) (st : BitVec 2) (p : Bit) (c : BitVec 2) (b : Bit),
    decode (selWord true vld st p c b) = .ok .reset := by decide
theorem decode_hold : ∀ (st : BitVec 2) (p : Bit) (c : BitVec 2) (b : Bit),
    decode (selWord false false st p c b) = .ok .hold := by decide
theorem decode_srchShift : ∀ (c : BitVec 2) (b : Bit),
    decode (selWord false true 0b00#2 false c b) = .ok (.srchShift b) := by decide
theorem decode_srchSync : ∀ (c : BitVec 2) (b : Bit),
    decode (selWord false true 0b00#2 true c b) = .ok (.srchSync b) := by decide
theorem decode_lenShift : ∀ (c : BitVec 2) (b : Bit),
    decode (selWord false true 0b01#2 false c b) = .ok (.lenShift b) := by decide
theorem decode_lenOpen : ∀ b : Bit,
    decode (selWord false true 0b01#2 true 0b00#2 b) = .ok (.lenOpen b) := by decide
theorem decode_lenEmpty : ∀ b : Bit,
    decode (selWord false true 0b01#2 true 0b01#2 b) = .ok (.lenEmpty b) := by decide
theorem decode_lenOvf : ∀ b : Bit,
    decode (selWord false true 0b01#2 true 0b10#2 b) = .ok (.lenOvf b) := by decide
theorem decode_payStore : ∀ (c : BitVec 2) (b : Bit),
    decode (selWord false true 0b10#2 false c b) = .ok (.payStore b) := by decide
theorem decode_payEmit : ∀ b : Bit,
    decode (selWord false true 0b10#2 true 0b00#2 b) = .ok (.payEmit b) := by decide
theorem decode_payPass : ∀ b : Bit,
    decode (selWord false true 0b10#2 true 0b01#2 b) = .ok (.payPass b) := by decide
theorem decode_payDrop : ∀ b : Bit,
    decode (selWord false true 0b10#2 true 0b10#2 b) = .ok (.payDrop b) := by decide
theorem decode_illegal : ∀ (p : Bit) (c : BitVec 2) (b : Bit),
    decode (selWord false true 0b11#2 p c b) = .ok .illegal := by decide
end Decode

/-- A step with its input presented, by its definition. -/
theorem State.stepIn_eq (s : State) (inp : StepInput) : s.stepIn inp =
    if s.cfg.legal then
      match s.selector inp with
      | .error f => .fault f
      | .ok w =>
        match decode w with
        | .ok i => exec i s
        | .error _ => .refused (.noSelectorRow w)
    else .refused .illegalConfig := rfl

/-- A step is the step that is presented its next input. -/
theorem step_eq_stepIn (s : State) : step s = s.takeInput.stepIn s.nextInput := rfl

/-- The four values of `ST`. -/
theorem st_cases (st : BitVec 2) :
    st = stSearching ∨ st = stReadingLength ∨ st = stReadingPayload ∨ st = stIllegal := by
  revert st; decide

/-- The condition under which a step with input `inp` performs an operation: that of R79. -/
def Selects (s : State) (inp : StepInput) : Instr → Prop
  | .reset => inp.rst = true
  | .hold => inp.rst = false ∧ inp.vld = false
  | .srchShift b => inp = .ofBit b ∧ s.st = stSearching ∧ s.window b ≠ s.cfg.syncPattern
  | .srchSync b => inp = .ofBit b ∧ s.st = stSearching ∧ s.window b = s.cfg.syncPattern
  | .lenShift b => inp = .ofBit b ∧ s.st = stReadingLength ∧ s.idx ≠ 7#12
  | .lenOpen b => inp = .ofBit b ∧ s.st = stReadingLength ∧ s.idx = 7#12 ∧
      lenClass s.cfg (s.lenField b) = 0b00#2
  | .lenEmpty b => inp = .ofBit b ∧ s.st = stReadingLength ∧ s.idx = 7#12 ∧
      lenClass s.cfg (s.lenField b) = 0b01#2
  | .lenOvf b => inp = .ofBit b ∧ s.st = stReadingLength ∧ s.idx = 7#12 ∧
      lenClass s.cfg (s.lenField b) = 0b10#2
  | .payStore b => inp = .ofBit b ∧ s.st = stReadingPayload ∧
      s.idx.toNat + 1 ≠ nbits s.cfg s.len
  | .payEmit b => inp = .ofBit b ∧ s.st = stReadingPayload ∧
      s.idx.toNat + 1 = nbits s.cfg s.len ∧ s.crcClass b = .ok 0b00#2
  | .payPass b => inp = .ofBit b ∧ s.st = stReadingPayload ∧
      s.idx.toNat + 1 = nbits s.cfg s.len ∧ s.crcClass b = .ok 0b01#2
  | .payDrop b => inp = .ofBit b ∧ s.st = stReadingPayload ∧
      s.idx.toNat + 1 = nbits s.cfg s.len ∧ s.crcClass b = .ok 0b10#2
  | .illegal => inp.rst = false ∧ inp.vld = true ∧ s.st = stIllegal

theorem lenClass_cases (c : Config) (l : Byte) :
    lenClass c l = 0b00#2 ∨ lenClass c l = 0b01#2 ∨ lenClass c l = 0b10#2 := by
  unfold lenClass; split_ifs <;> simp

theorem State.crcClass_cases (s : State) (b : Bit) :
    s.crcClass b = .ok 0b00#2 ∨ s.crcClass b = .ok 0b01#2 ∨ s.crcClass b = .ok 0b10#2 ∨
      ∃ f, s.crcClass b = .error f := by
  unfold State.crcClass
  split
  · cases s.completion b with
    | error f => simp
    | ok r => dsimp only; split_ifs <;> simp
  · simp

/-- In a step of an operation's condition, that operation is performed. -/
theorem State.stepIn_of_selects {s : State} {inp : StepInput} {i : Instr} (hc : s.cfg.legal = true)
    (h : Selects s inp i) : s.stepIn inp = exec i s := by
  obtain ⟨rst, vld, b'⟩ := inp
  rw [State.stepIn_eq, if_pos hc]
  cases i <;> simp only [Selects, StepInput.ofBit, StepInput.mk.injEq] at h
  case reset => subst h; simp [State.selector, State.predC, State.predP, decode_reset]
  case hold =>
    obtain ⟨rfl, rfl⟩ := h; simp [State.selector, State.predC, State.predP, decode_hold]
  case srchShift b =>
    obtain ⟨⟨rfl, rfl, rfl⟩, hst, hw⟩ := h
    simp [State.selector, State.predC, State.predP, hst, hw, decode_srchShift]
  case srchSync b =>
    obtain ⟨⟨rfl, rfl, rfl⟩, hst, hw⟩ := h
    simp [State.selector, State.predC, State.predP, hst, hw, decode_srchSync]
  case lenShift b =>
    obtain ⟨⟨rfl, rfl, rfl⟩, hst, hw⟩ := h
    simp [State.selector, State.predC, State.predP, hst, hw, decode_lenShift]
  case lenOpen b =>
    obtain ⟨⟨rfl, rfl, rfl⟩, hst, hi, hw⟩ := h
    simp [State.selector, State.predC, State.predP, hst, hi, hw, decode_lenOpen]
  case lenEmpty b =>
    obtain ⟨⟨rfl, rfl, rfl⟩, hst, hi, hw⟩ := h
    simp [State.selector, State.predC, State.predP, hst, hi, hw, decode_lenEmpty]
  case lenOvf b =>
    obtain ⟨⟨rfl, rfl, rfl⟩, hst, hi, hw⟩ := h
    simp [State.selector, State.predC, State.predP, hst, hi, hw, decode_lenOvf]
  case payStore b =>
    obtain ⟨⟨rfl, rfl, rfl⟩, hst, hw⟩ := h
    simp [State.selector, State.predC, State.predP, hst, hw, decode_payStore]
  case payEmit b =>
    obtain ⟨⟨rfl, rfl, rfl⟩, hst, hi, hw⟩ := h
    simp [State.selector, State.predC, State.predP, hst, hi, hw, decode_payEmit]
  case payPass b =>
    obtain ⟨⟨rfl, rfl, rfl⟩, hst, hi, hw⟩ := h
    simp [State.selector, State.predC, State.predP, hst, hi, hw, decode_payPass]
  case payDrop b =>
    obtain ⟨⟨rfl, rfl, rfl⟩, hst, hi, hw⟩ := h
    simp [State.selector, State.predC, State.predP, hst, hi, hw, decode_payDrop]
  case illegal =>
    obtain ⟨rfl, rfl, hst⟩ := h
    simp [State.selector, State.predC, State.predP, hst, decode_illegal]

/-- Every step with a legal configuration performs an operation in whose condition it is, but for a
completion whose CRC verdict faults. -/
theorem State.selects_or_fault (s : State) (inp : StepInput) :
    (∃ i, Selects s inp i) ∨
    (s.st = stReadingPayload ∧ s.idx.toNat + 1 = nbits s.cfg s.len ∧
      ∃ b f, inp = .ofBit b ∧ s.crcClass b = .error f) := by
  obtain ⟨rst, vld, b⟩ := inp
  cases rst
  case true => exact .inl ⟨.reset, rfl⟩
  cases vld
  case false => exact .inl ⟨.hold, rfl, rfl⟩
  rcases st_cases s.st with hst | hst | hst | hst
  · by_cases hw : s.window b = s.cfg.syncPattern
    · exact .inl ⟨.srchSync b, rfl, hst, hw⟩
    · exact .inl ⟨.srchShift b, rfl, hst, hw⟩
  · by_cases hi : s.idx = 7#12
    · rcases lenClass_cases s.cfg (s.lenField b) with h | h | h
      · exact .inl ⟨.lenOpen b, rfl, hst, hi, h⟩
      · exact .inl ⟨.lenEmpty b, rfl, hst, hi, h⟩
      · exact .inl ⟨.lenOvf b, rfl, hst, hi, h⟩
    · exact .inl ⟨.lenShift b, rfl, hst, hi⟩
  · by_cases hi : s.idx.toNat + 1 = nbits s.cfg s.len
    · rcases s.crcClass_cases b with h | h | h | ⟨f, h⟩
      · exact .inl ⟨.payEmit b, rfl, hst, hi, h⟩
      · exact .inl ⟨.payPass b, rfl, hst, hi, h⟩
      · exact .inl ⟨.payDrop b, rfl, hst, hi, h⟩
      · exact .inr ⟨hst, hi, b, f, rfl, h⟩
    · exact .inl ⟨.payStore b, rfl, hst, hi⟩
  · exact .inl ⟨.illegal, rfl, rfl, hst⟩

/-- What a step can do: if it answers a next state, the configuration is legal and it performed the
operation its input and state select. -/
theorem State.stepIn_next {s t : State} {inp : StepInput} (h : s.stepIn inp = .next t) :
    s.cfg.legal = true ∧ ∃ i, Selects s inp i ∧ exec i s = .next t := by
  have hc : s.cfg.legal = true := by
    by_contra hc
    rw [State.stepIn_eq, if_neg hc] at h
    cases h
  refine ⟨hc, ?_⟩
  rcases s.selects_or_fault inp with ⟨i, hi⟩ | ⟨hst, hi, b, f, rfl, hf⟩
  · exact ⟨i, hi, by rw [← State.stepIn_of_selects hc hi]; exact h⟩
  · rw [State.stepIn_eq, if_pos hc] at h
    simp [State.selector, State.predC, State.predP, StepInput.ofBit, hst, hi, hf] at h

/-- What PAY.STORE can do. -/
theorem execPayStore_next {b : Bit} {s t : State} (h : exec (.payStore b) s = .next t) :
    s.idx.toNat < bufCap s.cfg ∧
      t = { s with buf := Memory.write s.buf s.idx.toNat b, idx := s.idx + 1#12, out := none } := by
  simp only [exec, execPayStore] at h
  rcases s.quiet.memWrite_cases s.idx.toNat b with ⟨hi, he⟩ | ⟨hi, he⟩
  · rw [he] at h; cases h; exact ⟨hi, rfl⟩
  · rw [he] at h; cases h

/-- What PAY.EMIT can do. -/
theorem execPayEmit_next {b : Bit} {s t : State} (h : exec (.payEmit b) s = .next t) :
    ∃ q, CompletedBits s b q ∧
      t = (State.emit { s with buf := Memory.write s.buf s.idx.toNat b }
        (.packet s.len (payloadOf s.cfg s.len (pack q)))).freshSearch := by
  simp only [exec, execPayEmit] at h
  cases hc : s.completion b with
  | error f => simp [hc] at h
  | ok r =>
    obtain ⟨q, hq, rfl⟩ := (s.completion_eq_ok b r).mp hc
    simp only [hc, Host.Outcome.next.injEq] at h
    exact ⟨q, hq, h.symm⟩

/-- What PAY.PASS can do. -/
theorem execPayPass_next {b : Bit} {s t : State} (h : exec (.payPass b) s = .next t) :
    ∃ q r, CompletedBits s b q ∧ recvOf s.cfg s.len (pack q) = some r ∧
      t = ((State.crcEngineRan { s with buf := Memory.write s.buf s.idx.toNat b }).emit
        (.packet s.len (payloadOf s.cfg s.len (pack q)))).freshSearch := by
  simp only [exec, execPayPass] at h
  cases hc : s.completion b with
  | error f => simp [hc] at h
  | ok r =>
    obtain ⟨q, hq, rfl⟩ := (s.completion_eq_ok b r).mp hc
    simp only [hc] at h
    cases hr : recvOf s.cfg s.len (pack q) with
    | none => simp [hr] at h
    | some r => simp only [hr, Host.Outcome.next.injEq] at h; exact ⟨q, r, hq, hr, h.symm⟩

/-- What PAY.DROP can do. -/
theorem execPayDrop_next {b : Bit} {s t : State} (h : exec (.payDrop b) s = .next t) :
    ∃ q r, CompletedBits s b q ∧ recvOf s.cfg s.len (pack q) = some r ∧
      t = (State.crcEngineRan { s with buf := Memory.write s.buf s.idx.toNat b }).raise
        (.crcMismatch s.len (calcOf s.cfg s.len (pack q)) r) := by
  simp only [exec, execPayDrop] at h
  cases hc : s.completion b with
  | error f => simp [hc] at h
  | ok r =>
    obtain ⟨q, hq, rfl⟩ := (s.completion_eq_ok b r).mp hc
    simp only [hc] at h
    cases hr : recvOf s.cfg s.len (pack q) with
    | none => simp [hr] at h
    | some r => simp only [hr, Host.Outcome.next.injEq] at h; exact ⟨q, r, hq, hr, h.symm⟩

end Sys2Proof.Machine
end

