-- ==== Sys2Proof/Tests/Slice0.lean ====
section
/-! SUPPORT. Tests whose expected results are the spec's (95_test_vectors.md, the worked examples of the
rules), the smoke tests of WellFormed, and, for the statements with hypotheses, states that meet them. -/

namespace Sys2Proof.Tests

open Sys2Proof.Machine

/-! ### Helpers -/

/-- Scenario A with a verified trailer. -/
def cfgB : Config := { Config.atReset with hasCrc := true, checkCrc := true }
/-- `W = 16`, `SYNC_PATTERN = 0xD391`, `MAX_LEN = 16`. -/
def cfg16 : Config := { Config.atReset with maxLen := 16#8 }
/-- `W = 1`, `SYNC_PATTERN = 1`, `MAX_LEN = 0`: the least of each, and the greatest legal sync word. -/
def cfgMin : Config :=
  { Config.atReset with w := 1, syncPattern := 1, maxLen := 0#8 }
/-- A given sync word of a given width. -/
def cfgSync (w syncPattern : Nat) : Config := { Config.atReset with w := w, syncPattern := syncPattern }

/-- A state with the bits `q` in the first cells of the buffer. -/
def mk (c : Config) (st : BitVec 2) (sr : Nat) (idx : BitVec 12) (len : Byte) (q : List Bit) : State :=
  { State.reset with st := st, sr := sr, idx := idx, len := len, cfg := c,
                     buf := Memory.writeBits [] 0 q }

/-- One field of the next state. -/
def after {α : Type} (o : Host.Outcome State Fault Refusal) (f : State → α) : Option α :=
  match o with
  | .next s => some (f s)
  | .fault _ => none
  | .refused _ => none

/-- `ST / SR / IDX`, as the vectors write a state. -/
def regs (s : State) : BitVec 2 × Nat × BitVec 12 := (s.st, s.sr, s.idx)

theorem mk_inv (c : Config) (st : BitVec 2) (sr : Nat) (idx : BitVec 12) (len : Byte) (q : List Bit)
    (hc : c.legal = true) (hst : st ≠ stIllegal) (hsr : sr < 2 ^ srWidth c) (hq : q.length ≤ bufCap c)
    (hs : st = stSearching → idx = 0#12 ∧ sr < 2 ^ c.w)
    (hl : st = stReadingLength → idx.toNat ≤ 7 ∧ sr < 2 ^ idx.toNat)
    (hp : st = stReadingPayload → len.toNat ≤ c.maxLen.toNat ∧ 0 < nbits c len ∧
      idx.toNat < nbits c len ∧ idx.toNat ≤ q.length) : Inv (mk c st sr idx len q) where
  cfgLegal := hc
  stLegal := hst
  srFits := hsr
  bufWf := Memory.wf_writeBits [] 0 q rfl
  bufInCap i v h := by
    simp only [mk, Memory.read_writeBits] at h
    split at h
    · show i < bufCap c; omega
    · simp [Memory.read] at h
  searching := hs
  readingLength := hl
  readingPayload h := by
    obtain ⟨h1, h2, h3, h4⟩ := hp h
    refine ⟨h1, h2, h3, fun i hi => ?_⟩
    have hi' : i < q.length := Nat.lt_of_lt_of_le hi h4
    simp [mk, Memory.read_writeBits, hi']

theorem mk_completed (c : Config) (st : BitVec 2) (sr : Nat) (idx : BitVec 12) (len : Byte)
    (q : List Bit) (b : Bit) (hq : q.length = idx.toNat) (hn : idx.toNat + 1 = nbits c len)
    (hc : nbits c len ≤ bufCap c) : CompletedBits (mk c st sr idx len q) b (q ++ [b]) where
  idxInCap := by show idx.toNat < bufCap c; omega
  bufInCap := hc
  length := by simp [mk, hq, hn]
  bits i hi := by
    have hi' : i < nbits c len := hi
    simp only [mk, Memory.read_writeBits]
    split
    · subst_vars; simp [← hq]
    · rw [if_pos (by omega), List.getElem?_append_left (by omega)]; simp

/-! ### WellFormed -/

theorem test_wf_refuses_lenEmpty_with_bit_1 : (Instr.lenEmpty true).wellFormed = false := by decide
theorem test_wf_accepts_lenEmpty_with_bit_0 : (Instr.lenEmpty false).wellFormed = true := by decide
theorem test_legal_refuses_width_0 : (cfgSync 0 0).legal = false := by decide
theorem test_legal_refuses_sync_word_too_wide : (cfgSync 4 16).legal = false := by decide
theorem test_legal_accepts_greatest_sync_word : (cfgSync 4 15).legal = true := by decide

/-! ### Decode: each word written out as `rst vld ST p c b` (R80, 95_test_vectors.md 2.7) -/

theorem test_decode_reset : decode 0b10000000#8 = .ok .reset := by decide
theorem test_decode_hold : decode 0b00010001#8 = .ok .hold := by decide
theorem test_decode_srchShift : decode 0b01000001#8 = .ok (.srchShift true) := by decide
theorem test_decode_srchSync : decode 0b01001001#8 = .ok (.srchSync true) := by decide
theorem test_decode_lenShift : decode 0b01010000#8 = .ok (.lenShift false) := by decide
theorem test_decode_lenOpen : decode 0b01011001#8 = .ok (.lenOpen true) := by decide
theorem test_decode_lenEmpty : decode 0b01011010#8 = .ok (.lenEmpty false) := by decide
theorem test_decode_lenOvf : decode 0b01011100#8 = .ok (.lenOvf false) := by decide
theorem test_decode_payStore : decode 0b01100001#8 = .ok (.payStore true) := by decide
theorem test_decode_payEmit : decode 0b01101001#8 = .ok (.payEmit true) := by decide
theorem test_decode_payPass : decode 0b01101010#8 = .ok (.payPass false) := by decide
theorem test_decode_payDrop : decode 0b01101100#8 = .ok (.payDrop false) := by decide
theorem test_decode_illegal : decode 0b01110000#8 = .ok .illegal := by decide
/-- R83: `p = 1`, `c = 0b11` in READING_PAYLOAD. -/
theorem test_decode_no_semantics : decode 0x6E#8 = .error (.noSemantics 0x6E#8) := by decide
theorem test_decodeTableWord_wrong_size : decodeTableWord 16 0x41 = none := by decide

/-! ### The operations (95_test_vectors.md part 2) -/

/-- Z1 -/
theorem test_reset_loses_the_bit :
    after ((mk Config.atReset 0b10#2 3 17#12 3#8 []).stepIn ⟨true, true, true⟩)
      (fun s => (regs s, s.out)) = some ((0b00#2, 0, 0#12), none) := by decide
/-- Z3 -/
theorem test_hold_keeps_the_registers :
    after ((mk Config.atReset 0b01#2 1 7#12 0#8 []).stepIn ⟨false, false, true⟩) regs
      = some (0b01#2, 1, 7#12) := by decide
/-- S4: the mask keeps 16 bits -/
theorem test_srchShift_masks :
    after ((mk Config.atReset 0b00#2 0xFFFF 0#12 0#8 []).stepIn (.ofBit true)) regs
      = some (0b00#2, 0xFFFF, 0#12) := by decide
/-- S14: `W = 1` -/
theorem test_srchShift_width_1 :
    after ((mk (cfgSync 1 1) 0b00#2 1 0#12 0#8 []).stepIn (.ofBit false)) regs
      = some (0b00#2, 0, 0#12) := by decide
/-- S3: the old top bit is masked off -/
theorem test_srchSync_old_top_bit :
    after ((mk Config.atReset 0b00#2 0xE9C8 0#12 0#8 []).stepIn (.ofBit true)) regs
      = some (0b01#2, 0, 0#12) := by decide
/-- S17: `W = 32` -/
theorem test_srchSync_width_32 :
    after ((mk (cfgSync 32 0x1ACFFC1D) 0b00#2 0x8D67FE0E 0#12 0#8 []).stepIn (.ofBit true)) regs
      = some (0b01#2, 0, 0#12) := by decide
/-- L2 -/
theorem test_lenShift_last :
    after ((mk Config.atReset 0b01#2 1 6#12 0#8 []).stepIn (.ofBit true)) regs
      = some (0b01#2, 3, 7#12) := by decide
/-- L7: the longest packet -/
theorem test_lenOpen_255 :
    after ((mk cfgB 0b01#2 0x7F 7#12 0#8 []).stepIn (.ofBit true)) (fun s => (regs s, s.len))
      = some ((0b10#2, 0xFF, 0#12), 255#8) := by decide
/-- L14: only a trailer, with `MAX_LEN = 0` -/
theorem test_lenOpen_trailer_only :
    after ((mk { cfgB with maxLen := 0#8 } 0b01#2 0 7#12 9#8 []).stepIn (.ofBit false))
      (fun s => (regs s, s.len)) = some ((0b10#2, 0, 0#12), 0#8) := by decide
/-- L4 -/
theorem test_lenEmpty :
    after ((mk Config.atReset 0b01#2 0 7#12 9#8 []).stepIn (.ofBit false))
      (fun s => (regs s, s.len, s.out)) = some ((0b00#2, 0, 0#12), 0#8, some (.packet 0#8 [])) := by decide
/-- L11: one above the bound -/
theorem test_lenOvf_17 :
    after ((mk cfg16 0b01#2 8 7#12 0#8 []).stepIn (.ofBit true)) (fun s => (regs s, s.len, s.out))
      = some ((0b00#2, 0, 0#12), 17#8, some (.allocFail 17#8)) := by decide
/-- P2v -/
theorem test_payStore :
    after ((mk Config.atReset 0b10#2 3 22#12 3#8 []).stepIn (.ofBit true))
      (fun s => (s.idx, Memory.read s.buf 22, Memory.read s.buf 21))
      = some (23#12, some true, none) := by decide
/-- P6v: the largest `IDX` -/
theorem test_payStore_largest_idx :
    after ((mk cfgB 0b10#2 255 2054#12 255#8 []).stepIn (.ofBit false)) (·.idx)
      = some 2055#12 := by decide
/-- The bits of `41 42 43` but the last (P3v). -/
def bitsABC : List Bit := (bytesBits [0x41#8, 0x42#8, 0x43#8]).take 23
/-- P3v, A1: the end of Scenario A -/
theorem test_payEmit_abc :
    after ((mk Config.atReset 0b10#2 3 23#12 3#8 bitsABC).stepIn (.ofBit true))
      (fun s => (regs s, s.out)) = some ((0b00#2, 0, 0#12),
        some (.packet 3#8 [0x41#8, 0x42#8, 0x43#8])) := by decide
/-- A4: a wrong trailer is stripped unseen -/
theorem test_payEmit_strips_the_trailer :
    after ((mk { cfgB with checkCrc := false } 0b10#2 1 23#12 1#8
        ((bytesBits [0x41#8, 0xBC#8, 0xB4#8]).take 23)).stepIn (.ofBit false)) (·.out)
      = some (some (.packet 1#8 [0x41#8])) := by decide
/-- A7: the verified empty packet, trailer `FD 02` -/
theorem test_payPass_empty :
    after ((mk cfgB 0b10#2 0 15#12 0#8 ((bytesBits [0xFD#8, 0x02#8]).take 15)).stepIn (.ofBit false))
      (fun s => (regs s, s.out)) = some ((0b00#2, 0, 0#12), some (.packet 0#8 [])) := by decide
/-- A8: trailer `00 00` -/
theorem test_payDrop_empty :
    after ((mk cfgB 0b10#2 0 15#12 0#8 (List.replicate 15 false)).stepIn (.ofBit false))
      (fun s => (regs s, s.out))
      = some ((0b00#2, 0, 0#12), some (.crcMismatch 0#8 0xFD02#16 0x0000#16)) := by decide
/-- R89 -/
theorem test_illegal_refuses :
    (mk Config.atReset 0b11#2 0 0#12 0#8 []).stepIn (.ofBit true) = .refused .illegalState := rfl

/-! ### The CRC engine (43_crc_engine.md R163, 95_test_vectors.md 2.4) -/

theorem test_crcByte_trace : crcByte 0xFD08#16 0x41#8 0x8005#16 = 0x8B8B#16 := by decide
theorem test_crc16_abc : crc16 [0x03#8, 0x41#8, 0x42#8, 0x43#8] 0x8005#16 = 0xB4BC#16 := by decide +kernel
theorem test_crc16_other_polynomial :
    crc16 [0x03#8, 0x41#8, 0x42#8, 0x43#8] 0x1021#16 = 0x2688#16 := by decide +kernel

/-! ### Pack, frame (95_test_vectors.md 2.3, V2) -/

theorem test_pack : pack (bytesBits [0xD3#8, 0x91#8]) = [0xD3#8, 0x91#8] ∧
    pack [true, false, false, false, false, false, false, false] = [0x80#8] := by decide
theorem test_frame :
    frame cfgB [0x41#8, 0x42#8, 0x43#8]
      = bytesBits [0xD3#8, 0x91#8, 0x03#8, 0x41#8, 0x42#8, 0x43#8, 0xB4#8, 0xBC#8] := by decide +kernel

/-! ### The placing of a word (log entry 7) -/

theorem test_placed_payPass :
    after (step (State.reset.withFetchWord 8 0x6B)) (·.out) = some (some (.packet 0#8 [])) := by decide +kernel
theorem test_placed_illegal :
    step (State.reset.withFetchWord 8 0x70) = .refused .illegalState := rfl

/-! ### Witnesses: for every statement with hypotheses, values that meet all of them together -/

/-- SEARCHING with the largest window. -/
def sSearch : State := mk Config.atReset 0b00#2 0xFFFF 0#12 0#8 []
/-- READING_LENGTH before the last bit, with the largest seven bits. -/
def sLength : State := mk Config.atReset 0b01#2 127 7#12 0#8 []
/-- READING_PAYLOAD before the last bit of `ABC`. -/
def sLast : State := mk Config.atReset 0b10#2 3 23#12 3#8 bitsABC
/-- READING_PAYLOAD before the last bit of the good trailer `FD 02`. -/
def sGood : State := mk cfgB 0b10#2 0 15#12 0#8 ((bytesBits [0xFD#8, 0x02#8]).take 15)
/-- READING_PAYLOAD before the last bit of the bad trailer `00 00`. -/
def sBad : State := mk cfgB 0b10#2 0 15#12 0#8 (List.replicate 15 false)
/-- READING_LENGTH at its start. -/
def sSynced (c : Config) : State := mk c 0b01#2 0 0#12 0#8 []
/-- The reset state with a configuration. -/
def sFresh (c : Config) : State := mk c 0b00#2 0 0#12 0#8 []

theorem witness_inv_searching : Inv sSearch := by apply mk_inv <;> decide
theorem witness_inv_reading_length : Inv sLength := by apply mk_inv <;> decide
theorem witness_inv_reading_payload : Inv sLast := by apply mk_inv <;> decide
theorem witness_completed_abc : CompletedBits sLast true (bitsABC ++ [true]) := by
  apply mk_completed <;> decide
theorem witness_completed_good :
    CompletedBits sGood false ((bytesBits [0xFD#8, 0x02#8]).take 15 ++ [false]) := by
  apply mk_completed <;> decide
theorem witness_completed_bad : CompletedBits sBad false (List.replicate 15 false ++ [false]) := by
  apply mk_completed <;> decide

/-! SelectorPatternsDisjointAndCovering -/
theorem witness_word_of_no_row : 0x6F#8 ∈ [0x5E#8, 0x5F#8, 0x6E#8, 0x6F#8] := by decide
theorem witness_word_of_a_row : 0x5D#8 ∉ [0x5E#8, 0x5F#8, 0x6E#8, 0x6F#8] := by decide

/-! SelectorNeverProducesAReservedWord, StepRunsTheDecodedOperation, PlacedWordIsTheNextStep -/
theorem witness_selector_without_p :
    sSearch.selector (.ofBit true) = .ok 0x41#8 ∧ (0x41#8).getLsbD 3 = false ∧
      sSearch.st = stSearching := by decide
/-- 95_test_vectors.md 2.7 and P1, P2: the last length bit, the last buffer bit unverified, the verdicts. -/
theorem witness_selector_with_p :
    sLength.selector (.ofBit true) = .ok 0x59#8 ∧ sLast.selector (.ofBit true) = .ok 0x69#8 ∧
      sGood.selector (.ofBit false) = .ok 0x6A#8 ∧ sBad.selector (.ofBit false) = .ok 0x6C#8 ∧
      (0x6A#8).getLsbD 3 = true ∧ (bytesBits [0xFD#8, 0x02#8]).take 15 ++ [false]
        = [] ++ bitsOf 16 (0xFD02#16).toNat := by decide
theorem witness_selector_of_reset : sSearch.selector ⟨true, true, true⟩ = .ok 0xC1#8 := by decide
theorem witness_step_runs :
    let s := { sLength with pending := [.ofBit true, .ofBit false] }
    s.cfg.legal = true ∧ s.takeInput.selector s.nextInput = .ok 0x59#8 ∧
      decode 0x59#8 = .ok (.lenOpen true) ∧ s.pending = .ofBit true :: [.ofBit false] := by decide
theorem witness_nothing_pending : State.reset.pending = [] := rfl
theorem witness_placed_word :
    decodeTableWord 8 0x58 = some (.lenOpen false) ∧ (Instr.lenOpen false).wellFormed = true := by decide

/-! The operations: a word of each row at both ends of its ignored bits, and a step of each condition -/
theorem witness_words_reset : 0x80#8 &&& 0x80#8 = 0x80#8 ∧ 0xFF#8 &&& 0x80#8 = 0x80#8 := by decide
theorem witness_words_hold : 0x00#8 &&& 0xC0#8 = 0x00#8 ∧ 0x3F#8 &&& 0xC0#8 = 0x00#8 := by decide
theorem witness_words_srchShift : 0x40#8 &&& 0xF8#8 = 0x40#8 ∧ 0x47#8 &&& 0xF8#8 = 0x40#8 := by decide
theorem witness_words_srchSync : 0x48#8 &&& 0xF8#8 = 0x48#8 ∧ 0x4F#8 &&& 0xF8#8 = 0x48#8 := by decide
theorem witness_words_lenShift : 0x50#8 &&& 0xF8#8 = 0x50#8 ∧ 0x57#8 &&& 0xF8#8 = 0x50#8 := by decide
theorem witness_words_lenOpen : 0x58#8 &&& 0xFE#8 = 0x58#8 ∧ 0x59#8 &&& 0xFE#8 = 0x58#8 := by decide
theorem witness_words_lenEmpty : 0x5A#8 &&& 0xFE#8 = 0x5A#8 ∧ 0x5B#8 &&& 0xFE#8 = 0x5A#8 := by decide
theorem witness_words_lenOvf : 0x5C#8 &&& 0xFE#8 = 0x5C#8 ∧ 0x5D#8 &&& 0xFE#8 = 0x5C#8 := by decide
theorem witness_words_payStore : 0x60#8 &&& 0xF8#8 = 0x60#8 ∧ 0x67#8 &&& 0xF8#8 = 0x60#8 := by decide
theorem witness_words_payEmit : 0x68#8 &&& 0xFE#8 = 0x68#8 ∧ 0x69#8 &&& 0xFE#8 = 0x68#8 := by decide
theorem witness_words_payPass : 0x6A#8 &&& 0xFE#8 = 0x6A#8 ∧ 0x6B#8 &&& 0xFE#8 = 0x6A#8 := by decide
theorem witness_words_payDrop : 0x6C#8 &&& 0xFE#8 = 0x6C#8 ∧ 0x6D#8 &&& 0xFE#8 = 0x6C#8 := by decide
theorem witness_words_illegal : 0x70#8 &&& 0xF0#8 = 0x70#8 ∧ 0x7F#8 &&& 0xF0#8 = 0x70#8 := by decide
theorem witness_legal_least : cfgMin.legal = true := by decide
theorem witness_srchShift_step :
    sSearch.cfg.legal = true ∧ sSearch.st = stSearching ∧
      ((sSearch.sr <<< 1) &&& (2 ^ sSearch.cfg.w - 1)) ||| true.toNat ≠ sSearch.cfg.syncPattern := by
  decide
theorem witness_srchSync_step :
    let s := sFresh cfgMin
    s.cfg.legal = true ∧ s.st = stSearching ∧
      ((s.sr <<< 1) &&& (2 ^ s.cfg.w - 1)) ||| true.toNat = s.cfg.syncPattern := by decide
theorem witness_lenShift_step :
    let s := mk Config.atReset 0b01#2 127 6#12 0#8 []
    s.cfg.legal = true ∧ s.st = stReadingLength ∧ s.idx.toNat < 7 ∧ s.sr < 2 ^ 7 := by decide
theorem witness_lenOpen_step :
    sLength.cfg.legal = true ∧ sLength.st = stReadingLength ∧ sLength.idx = 7#12 ∧
      sLength.sr < 2 ^ 7 ∧ 255 = (sLength.sr <<< 1) ||| true.toNat ∧
      255 ≤ sLength.cfg.maxLen.toNat ∧
      0 < 8 * 255 + (if sLength.cfg.hasCrc then 16 else 0) := by decide
theorem witness_lenEmpty_step :
    let s := mk cfgMin 0b01#2 0 7#12 0#8 []
    s.cfg.legal = true ∧ s.st = stReadingLength ∧ s.idx = 7#12 ∧ s.sr < 2 ^ 7 ∧
      0 = (s.sr <<< 1) ||| false.toNat ∧ 0 ≤ s.cfg.maxLen.toNat ∧
      8 * 0 + (if s.cfg.hasCrc then 16 else 0) = 0 := by decide
theorem witness_lenOvf_step :
    let s := mk cfg16 0b01#2 8 7#12 0#8 []
    s.cfg.legal = true ∧ s.st = stReadingLength ∧ s.idx = 7#12 ∧ s.sr < 2 ^ 7 ∧
      17 = (s.sr <<< 1) ||| true.toNat ∧ s.cfg.maxLen.toNat < 17 ∧
      17#8 = BitVec.ofNat 8 ((s.sr <<< 1) ||| true.toNat) := by decide
theorem witness_payStore_last_cell :
    let s := mk cfgB 0b10#2 0 2055#12 255#8 []
    s.idx.toNat < 8 * s.cfg.maxLen.toNat + 16 := by decide
theorem witness_payStore_next :
    ∃ t, exec (.payStore true) sLast = .next t ∧ Memory.read t.buf 23 ≠ Memory.read sLast.buf 23 :=
  ⟨_, rfl, by decide⟩
theorem witness_payStore_step :
    let s := mk cfgB 0b10#2 0 14#12 0#8 []
    s.cfg.legal = true ∧ s.st = stReadingPayload ∧ s.len.toNat ≤ s.cfg.maxLen.toNat ∧
      s.idx.toNat + 1 < nbits s.cfg s.len := by decide
theorem witness_payEmit_next :
    ∃ t, exec (.payEmit true) sLast = .next t ∧ t.out = some (.packet 3#8 [0x41#8, 0x42#8, 0x43#8]) :=
  ⟨_, rfl, by decide⟩
theorem witness_payEmit_step :
    sLast.cfg.legal = true ∧ sLast.st = stReadingPayload ∧
      sLast.idx.toNat + 1 = nbits sLast.cfg sLast.len ∧
      (sLast.cfg.hasCrc = false ∨ sLast.cfg.checkCrc = false) := by decide
theorem witness_payPass_next :
    ∃ t, exec (.payPass false) sGood = .next t ∧ t.out = some (.packet 0#8 []) := ⟨_, rfl, by decide⟩
theorem witness_payPass_step :
    sGood.cfg.legal = true ∧ sGood.st = stReadingPayload ∧
      sGood.idx.toNat + 1 = nbits sGood.cfg sGood.len ∧ sGood.cfg.hasCrc = true ∧
      sGood.cfg.checkCrc = true ∧ (bytesBits [0xFD#8, 0x02#8]).take 15 ++ [false]
        = [] ++ bitsOf 16 (crc16 (sGood.len :: pack []) sGood.cfg.crcPoly).toNat := by decide
theorem witness_no_trailer : sLast.cfg.hasCrc = false := rfl
theorem witness_payDrop_next :
    ∃ t, exec (.payDrop false) sBad = .next t ∧
      t.out = some (.crcMismatch 0#8 0xFD02#16 0x0000#16) := ⟨_, rfl, by decide⟩
theorem witness_payDrop_step :
    sBad.cfg.legal = true ∧ sBad.st = stReadingPayload ∧
      sBad.idx.toNat + 1 = nbits sBad.cfg sBad.len ∧ sBad.cfg.hasCrc = true ∧
      sBad.cfg.checkCrc = true ∧
      List.replicate 15 false ++ [false] = [] ++ bitsOf 16 (0x0000#16).toNat ∧
      crc16 (sBad.len :: pack []) sBad.cfg.crcPoly ≠ 0x0000#16 := by decide
theorem witness_illegal_step :
    let s := mk Config.atReset 0b11#2 0 0#12 0#8 []
    s.cfg.legal = true ∧ s.st = 0b11#2 := by decide

/-! PayOperationsStopOutsideTheBuffer -/
theorem witness_no_cell : bufCap cfgMin ≤ (mk cfgMin 0b10#2 0 16#12 0#8 []).idx.toNat := by decide
theorem witness_unwritten_cell :
    let s := mk cfgB 0b10#2 0 14#12 0#8 (List.replicate 14 false)
    s.idx.toNat < bufCap s.cfg ∧ 15 < nbits s.cfg s.len ∧ 15 < bufCap s.cfg ∧ 15 ≠ s.idx.toNat ∧
      Memory.read s.buf 15 = none ∧
      ∀ i < 15, i ≠ s.idx.toNat → (Memory.read s.buf i).isSome := by decide
theorem witness_length_above_the_buffer :
    let s := mk cfgMin 0b10#2 0 15#12 3#8 (List.replicate 15 false)
    s.idx.toNat < bufCap s.cfg ∧ bufCap s.cfg < nbits s.cfg s.len ∧
      ∀ i < bufCap s.cfg, i ≠ s.idx.toNat → (Memory.read s.buf i).isSome := by decide

/-! IllegalConfigurationIsRefused -/
theorem witness_width_0 :
    ¬ (1 ≤ (sFresh (cfgSync 0 0)).cfg.w ∧
      (sFresh (cfgSync 0 0)).cfg.syncPattern < 2 ^ (sFresh (cfgSync 0 0)).cfg.w) := by decide
theorem witness_sync_word_too_wide :
    ¬ (1 ≤ (sFresh (cfgSync 1 2)).cfg.w ∧
      (sFresh (cfgSync 1 2)).cfg.syncPattern < 2 ^ (sFresh (cfgSync 1 2)).cfg.w) := by decide

/-! The invariant and the whole machine: steps that answer a next state -/
theorem witness_step_from_searching :
    ∃ t, step (sFresh Config.atReset) = .next t ∧ (sFresh Config.atReset).st = stSearching ∧
      (sFresh Config.atReset).st ≠ stIllegal := ⟨_, rfl, by decide⟩
theorem witness_step_with_a_packet :
    let s := { sLast with pending := [.ofBit true] }
    ∃ t, Inv s ∧ step s = .next t ∧ s.st = stReadingPayload ∧
      t.out = some (.packet 3#8 [0x41#8, 0x42#8, 0x43#8]) ∧ t.out ≠ none := by
  refine ⟨_, ?_, rfl, rfl, by decide, by decide⟩
  have h := witness_inv_reading_payload
  exact ⟨h.1, h.2, h.3, h.4, h.5, h.6, h.7, h.8⟩
theorem witness_step_default_bound :
    let s := { sLength with pending := [.ofBit true] }
    ∃ t, s.cfg.maxLen = 255#8 ∧ step s = .next t ∧ t.st = stReadingPayload := ⟨_, rfl, rfl, rfl⟩
theorem witness_writes_len_st_sr_idx :
    ∃ t, exec (.lenOpen true) sLength = .next t ∧ t.len ≠ sLength.len ∧ t.st ≠ sLength.st ∧
      t.sr ≠ sLength.sr ∧ t.idx ≠ sLength.idx := ⟨_, rfl, by decide⟩
theorem witness_writes_crc :
    ∃ t, exec (.payPass false) sGood = .next t ∧ t.crcRuns ≠ sGood.crcRuns := ⟨_, rfl, by decide⟩
theorem witness_raises_alloc_fail :
    ∃ t, exec (.lenOvf true) sLength = .next t ∧ t.out = some (.allocFail 255#8) :=
  ⟨_, rfl, by decide⟩
theorem witness_no_event : ∃ t, exec .hold sLength = .next t ∧ t.out = none := ⟨_, rfl, rfl⟩
/-- A mismatch and a good packet of the same length, from states of the invariant. -/
theorem witness_exception_and_packet :
    let s := { sBad with pending := [.ofBit false] }
    let s' := { sGood with pending := [.ofBit false] }
    ∃ t u, Inv s ∧ Inv s' ∧ step s = .next t ∧
      t.out = some (.crcMismatch 0#8 0xFD02#16 0x0000#16) ∧
      (Event.crcMismatch 0#8 0xFD02#16 0x0000#16).ok = false ∧
      (Event.crcMismatch 0#8 0xFD02#16 0x0000#16).len = 0#8 ∧
      step s' = .next u ∧ u.out = some (.packet 0#8 []) ∧ s.cfg = s'.cfg := by
  have hs : Inv sBad := by apply mk_inv <;> decide
  have hs' : Inv sGood := by apply mk_inv <;> decide
  exact ⟨_, _, ⟨hs.1, hs.2, hs.3, hs.4, hs.5, hs.6, hs.7, hs.8⟩,
    ⟨hs'.1, hs'.2, hs'.3, hs'.4, hs'.5, hs'.6, hs'.7, hs'.8⟩, rfl, by decide, by decide, rfl, rfl,
    by decide, rfl⟩
theorem witness_pass_and_drop :
    (∃ t, exec (.payDrop false) sGood = .next t) ∧ ∃ u, exec (.payPass false) sGood = .next u :=
  ⟨⟨_, rfl⟩, ⟨_, rfl⟩⟩

/-! Streams -/
theorem witness_2064_bits : Inv sLength ∧ 2064 ≤ (List.replicate 2064 true).length :=
  ⟨witness_inv_reading_length, by rw [List.length_replicate]⟩
theorem witness_fresh : FreshSearch (sFresh Config.atReset) ∧ FreshSearch (sFresh cfgMin) :=
  ⟨⟨rfl, rfl, rfl⟩, ⟨rfl, rfl, rfl⟩⟩
/-- Three calls, one of them without bits, from a state of the invariant (R206). -/
theorem witness_calls : Inv (sFresh cfgMin) ∧
    ((sFresh cfgMin).calls [[false], [], [false, true]]).map (·.2) = some ([], [1, 0, 2]) :=
  ⟨by apply mk_inv <;> decide, rfl⟩
theorem witness_no_match :
    (sFresh cfgMin).cfg.legal = true ∧ FreshSearch (sFresh cfgMin) ∧
      ∀ k, 1 ≤ k → k ≤ [false].length → winVal 1 ([false].take k) ≠ 1 :=
  ⟨by decide, ⟨rfl, rfl, rfl⟩, fun k h1 h2 => by
    have : k = 1 := by simp at h2; omega
    subst this; decide⟩
theorem witness_first_match :
    [false, true] ≠ [] ∧ (∀ k, 1 ≤ k → k < [false, true].length → winVal 1 ([false, true].take k) ≠ 1) ∧
      winVal 1 [false, true] = 1 :=
  ⟨by decide, fun k h1 h2 => by
    have : k = 1 := by simp at h2; omega
    subst this; decide, by decide⟩
theorem witness_sync_word_at_both_ends :
    Config.atReset.legal = true ∧ 0 ≤ Config.atReset.w ∧ 15 < Config.atReset.w ∧
      16 ≤ Config.atReset.w ∧ Config.atReset.syncPattern ≠ 0 := by decide
theorem witness_synced :
    (sSynced cfg16).cfg.legal = true ∧ (sSynced cfg16).st = stReadingLength ∧
      (sSynced cfg16).sr = 0 ∧ (sSynced cfg16).idx = 0#12 := by decide
theorem witness_length_cases :
    cfg16.maxLen < 17#8 ∧ (16#8 ≤ cfg16.maxLen ∧ 0 < nbits cfg16 16#8) ∧
      (0#8 ≤ cfg16.maxLen ∧ nbits cfg16 0#8 = 0) := by decide
theorem witness_payload_bits :
    let s := mk Config.atReset 0b10#2 3 0#12 3#8 []
    s.cfg.legal = true ∧ s.st = stReadingPayload ∧ s.len.toNat ≤ s.cfg.maxLen.toNat ∧
      s.idx.toNat + bitsABC.length < nbits s.cfg s.len := by decide
theorem noEarlyMatch_D391 (c : Config) (hw : c.w = 16) (hs : c.syncPattern = 0xD391) :
    NoEarlyMatch c := by
  intro k _ h2
  rw [hw, hs]
  have h : ∀ k < 16, winVal 16 ((bitsOf 16 0xD391).take k) ≠ 0xD391 := by decide +kernel
  exact h k (by omega)
/-- A frame of the greatest length the bound admits. -/
theorem witness_frame :
    let c : Config := { cfgB with maxLen := 3#8 }
    c.legal = true ∧ FreshSearch (sFresh c) ∧ [0x41#8, 0x42#8, 0x43#8].length ≤ c.maxLen.toNat ∧
      NoEarlyMatch c := ⟨by decide, ⟨rfl, rfl, rfl⟩, by decide, noEarlyMatch_D391 _ rfl rfl⟩
theorem witness_round_trip :
    let c : Config := { cfgB with maxLen := 0#8 }
    c.legal = true ∧ FreshSearch (sFresh c) ∧ NoEarlyMatch c ∧ c.hasCrc = true ∧
      c.checkCrc = true ∧ ([] : List Byte).length ≤ c.maxLen.toNat :=
  ⟨by decide, ⟨rfl, rfl, rfl⟩, noEarlyMatch_D391 _ rfl rfl, by decide⟩
theorem witness_flip :
    cfgB.legal = true ∧ FreshSearch (sFresh cfgB) ∧ NoEarlyMatch cfgB ∧ cfgB.hasCrc = true ∧
      cfgB.checkCrc = true ∧ cfgB.crcPoly.getLsbD 0 = true ∧
      [0x41#8, 0x42#8, 0x43#8].length ≤ cfgB.maxLen.toNat ∧
      [0x41#8, 0x42#8, 0x43#8][2]? = some 0x43#8 ∧ 7 < 8 :=
  ⟨by decide, ⟨rfl, rfl, rfl⟩, noEarlyMatch_D391 _ rfl rfl, by decide⟩
/-- Two states that differ in what is dead while the payload is read: `SR`, `CRC` and a later cell. -/
theorem witness_same_live :
    let s := mk Config.atReset 0b10#2 3 0#12 3#8 []
    let t := { mk Config.atReset 0b10#2 5 0#12 3#8 [true] with crc := 7#16 }
    Inv s ∧ Inv t ∧ SameLive s t ∧ s ≠ t := by
  have h : Inv (mk Config.atReset 0b10#2 5 0#12 3#8 [true]) := by apply mk_inv <;> decide
  refine ⟨by apply mk_inv <;> decide, ⟨h.1, h.2, h.3, h.4, h.5, h.6, h.7, h.8⟩,
    ⟨rfl, rfl, by decide, by decide, fun _ => ⟨rfl, rfl, fun i hi => ?_⟩⟩, by decide⟩
  simp [mk] at hi
/-- The first event after nine bits: `W = 1`, `SYNC_PATTERN = 1`, length 0. -/
theorem witness_event_after_nine_bits :
    ∃ u es, (sFresh cfgMin).runBits (true :: List.replicate 8 false) = some (u, es) ∧ es ≠ [] ∧
      (sFresh cfgMin).cfg.syncPattern.testBit 0 = true := by
  have h : ((sFresh cfgMin).runBits (true :: List.replicate 8 false)).map (·.2)
      = some [.packet 0#8 []] := by decide +kernel
  cases hr : (sFresh cfgMin).runBits (true :: List.replicate 8 false) with
  | none => rw [hr] at h; cases h
  | some r =>
    rw [hr] at h
    exact ⟨r.1, r.2, rfl, by simp at h; simp [h], by decide⟩

/-! FrameLayout, at the last byte and the last bit of each field -/
theorem witness_frame_layout :
    15 < Config.atReset.w ∧ [0x41#8, 0x42#8][1]? = some 0x42#8 ∧ 7 < 8 ∧ cfgB.hasCrc = true ∧
      15 < 16 := by decide

/-! The packer and the CRC engine -/
theorem witness_pack_last_byte :
    (bytesBits [0x41#8, 0x42#8]).length = 8 * 2 ∧ 1 < 2 := by decide
theorem witness_crc_of_a_message :
    0xB4BC#16 = crc16 [0x03#8, 0x41#8, 0x42#8, 0x43#8] 0x8005#16 := test_crc16_abc.symm
theorem witness_equal_lengths :
    [0x41#8].length = [0x42#8].length ∧ [0x42#8].length = [0x43#8].length := by decide
theorem witness_two_bytes : 2 ≤ [0x00#8, 0xFF#8].length := by decide
theorem witness_message_flip :
    (0x8005#16).getLsbD 0 = true ∧ [0x03#8, 0x41#8][1]? = some 0x41#8 ∧ 7 < 8 := by decide

end Sys2Proof.Tests
end

section
/-! SUPPORT. The proofs of two statements, and the layer they stand on: what the decoder answers for every
word of a row, the length field in unsigned integers, and the input of a step. -/

namespace Sys2Proof

/-! ### The decoder, row by row (R80) -/

/-- On the bits that both rows fix, their patterns differ. -/
def SelRow.Apart (r r' : SelRow) : Prop := r.pattern &&& r'.mask ≠ r'.pattern &&& r.mask

/-- No word belongs to two rows that are apart. -/
theorem SelRow.Apart.not_matches {r r' : SelRow} (h : r.Apart r') {w : BitVec 8}
    (hw : r.matches w = true) : ¬ r'.matches w = true := by
  intro hw'
  have hr : w &&& r.mask = r.pattern := by simpa [SelRow.matches] using hw
  have hr' : w &&& r'.mask = r'.pattern := by simpa [SelRow.matches] using hw'
  apply h
  calc r.pattern &&& r'.mask = w &&& r.mask &&& r'.mask := by rw [hr]
    _ = w &&& r'.mask &&& r.mask := by
      rw [BitVec.and_assoc, BitVec.and_comm r.mask, BitVec.and_assoc]
    _ = r'.pattern &&& r.mask := by rw [hr']

/-- R80: the rows of the table are pairwise disjoint. -/
theorem selectorTable_pairwise_apart : selectorTable.Pairwise SelRow.Apart := by
  unfold selectorTable SelRow.Apart
  decide

/-- Among rows that are pairwise apart, the first row of a word is any row it belongs to. -/
theorem find?_matches_eq_some {rows : List SelRow} (hrows : rows.Pairwise SelRow.Apart) {r : SelRow}
    (hr : r ∈ rows) {w : BitVec 8} (hw : r.matches w = true) :
    rows.find? (·.matches w) = some r := by
  induction rows with
  | nil => cases hr
  | cons r' rows ih =>
    obtain ⟨hapart, hrows⟩ := List.pairwise_cons.mp hrows
    rcases List.mem_cons.mp hr with rfl | hmem
    · exact List.find?_cons_of_pos hw
    · have hneg : ¬ r'.matches w = true := fun hw' => (hapart r hmem).not_matches hw' hw
      rw [List.find?_cons_of_neg (p := fun x : SelRow => x.matches w) hneg]
      exact ih hrows hmem

/-- A word of a row of the table decodes to that row's operation, with bit 0 as its operand. -/
theorem decode_of_matches {r : SelRow} (hr : r ∈ selectorTable) {w : BitVec 8}
    (hw : w &&& r.mask = r.pattern) : decode w = .ok (r.op (w.getLsbD 0)) := by
  have hm : r.matches w = true := by simpa [SelRow.matches] using hw
  rw [decode, find?_matches_eq_some selectorTable_pairwise_apart hr hm]

end Sys2Proof

namespace Sys2Proof.Machine

/-! ### The input of a step (R11) -/

theorem State.takeInput_eq (s : State) : s.takeInput = { s with pending := s.pending.tail } := rfl

theorem State.nextInput_of_pending_cons {s : State} {inp : StepInput} {rest : List StepInput}
    (h : s.pending = inp :: rest) : s.nextInput = inp := by
  rw [State.nextInput, h, List.headD_cons]

theorem State.nextInput_of_pending_nil {s : State} (h : s.pending = []) :
    s.nextInput = StepInput.nothing := by
  rw [State.nextInput, h, List.headD_nil]

/-- A step whose selector word names an operation performs it. -/
theorem State.stepIn_of_decode {s : State} {inp : StepInput} {w : BitVec 8} {i : Instr}
    (hc : s.cfg.legal = true) (hw : s.selector inp = .ok w) (hi : decode w = .ok i) :
    s.stepIn inp = exec i s := by
  simp only [State.stepIn_eq, if_pos hc, hw, hi]

/-! ### The length field (R120, R123) -/

/-- With at most seven length bits in `SR`, the length field is the shifted register itself. -/
theorem State.lenField_toNat {s : State} (h : s.sr < 2 ^ 7) (b : Bit) :
    (s.lenField b).toNat = s.lenShifted b := by
  have hlt : s.lenShifted b < 2 ^ 8 := by
    have hb := b.toNat_le
    rw [s.lenShifted_eq b]
    omega
  rw [State.lenField, BitVec.toNat_ofNat, Nat.mod_eq_of_lt hlt]

/-- A packet has no bits exactly when it has no payload and no trailer. -/
theorem nbits_eq_zero_iff (c : Config) (l : Byte) : nbits c l = 0 ↔ l = 0#8 ∧ c.hasCrc = false := by
  have hl : l = 0#8 ↔ l.toNat = 0 := BitVec.toNat_eq
  cases hcrc : c.hasCrc <;> simp [nbits, hcrc, hl]

/-- The class of R79 for a length the bound admits and a packet without bits. -/
theorem lenClass_of_nbits_eq_zero {c : Config} {l : Byte} (hle : l.toNat ≤ c.maxLen.toNat)
    (h0 : nbits c l = 0) : lenClass c l = 0b01#2 := by
  have hnot : ¬ c.maxLen < l := by rw [BitVec.lt_def]; omega
  rw [lenClass, if_neg hnot, if_pos h0]

/-- R123: the whole next state of LEN.EMPTY. -/
theorem exec_lenEmpty (b : Bit) (s : State) : exec (.lenEmpty b) s = .next
    { s with len := 0#8, sr := 0, idx := 0#12, st := stSearching, out := some (.packet 0#8 []),
             sink := s.sink ++ [.packet 0#8 []] } := rfl

/-- R79, R123: the eighth length bit that gives a packet without bits selects LEN.EMPTY. -/
theorem selects_lenEmpty {s : State} {b : Bit} (hst : s.st = stReadingLength) (hidx : s.idx = 7#12)
    (hsr : s.sr < 2 ^ 7) (hle : s.lenShifted b ≤ s.cfg.maxLen.toNat)
    (h0 : 8 * s.lenShifted b + (if s.cfg.hasCrc then 16 else 0) = 0) :
    Selects s (.ofBit b) (.lenEmpty b) := by
  rw [← State.lenField_toNat hsr b] at hle h0
  exact ⟨rfl, hst, hidx, lenClass_of_nbits_eq_zero hle h0⟩

end Sys2Proof.Machine

/-! ### The statements -/

namespace Sys2Proof.Proofs

open Sys2Proof.Machine

/-- Settles O15: each clause is the fact about LEN.EMPTY, about its row of the table, about the condition
that selects it, and about the size of a packet. -/
theorem lenEmptyCompletesTheEmptyPacket : Obligations.LenEmptyCompletesTheEmptyPacket := by
  refine ⟨exec_lenEmpty, fun w hw => ?_, fun b s l hc hst hidx hsr hl hle h0 => ?_, nbits_eq_zero_iff⟩
  · exact decode_of_matches (r := ⟨0xFE#8, 0x5A#8, .lenEmpty⟩) (by simp [selectorTable]) hw
  · subst hl
    rw [State.stepIn_of_selects hc (selects_lenEmpty hst hidx hsr hle h0), exec_lenEmpty]

/-- Settles O6: a step is the step presented its next input, on the state with that input taken. -/
theorem stepRunsTheDecodedOperation : Obligations.StepRunsTheDecodedOperation := by
  refine ⟨fun s w i hc hw hi => ?_, State.takeInput_eq,
    fun _ _ _ => State.nextInput_of_pending_cons, fun _ => State.nextInput_of_pending_nil⟩
  rw [step_eq_stepIn, State.stepIn_of_decode (s := s.takeInput) hc hw hi]

end Sys2Proof.Proofs
end

section
/-! SUPPORT. What each operation leaves behind, said once for all operations, and from it what the
registers, the cells and the output of a step can be (R35, R226). -/

namespace Sys2Proof.Machine

/-! ### The whole next state of every operation -/

/-- What the operation `i`, performed in `s`, leaves: the whole next state, and for the PAY operations
the condition under which there is one. -/
def Post (s : State) : Instr → State → Prop
  | .reset, t => t = { s with st := stSearching, sr := 0, idx := 0#12, out := none }
  | .hold, t => t = { s with out := none }
  | .srchShift b, t => t = { s with sr := s.window b % 2 ^ srWidth s.cfg, out := none }
  | .srchSync _, t => t = { s with sr := 0, idx := 0#12, st := stReadingLength, out := none }
  | .lenShift b, t =>
    t = { s with sr := s.lenShifted b % 2 ^ srWidth s.cfg, idx := s.idx + 1#12, out := none }
  | .lenOpen b, t =>
    t = { s with len := s.lenField b, sr := s.lenShifted b % 2 ^ srWidth s.cfg, idx := 0#12,
                 st := stReadingPayload, out := none }
  | .lenEmpty _, t => t = (State.emit { s with len := 0#8 } (.packet 0#8 [])).freshSearch
  | .lenOvf b, t =>
    t = (State.emit { s with len := s.lenField b } (.allocFail (s.lenField b))).freshSearch
  | .payStore b, t => s.idx.toNat < bufCap s.cfg ∧
    t = { s with buf := Memory.write s.buf s.idx.toNat b, idx := s.idx + 1#12, out := none }
  | .payEmit b, t => ∃ q, CompletedBits s b q ∧
    t = (State.emit { s with buf := Memory.write s.buf s.idx.toNat b }
      (.packet s.len (payloadOf s.cfg s.len (pack q)))).freshSearch
  | .payPass b, t => ∃ q r, CompletedBits s b q ∧ recvOf s.cfg s.len (pack q) = some r ∧
    t = ((State.crcEngineRan { s with buf := Memory.write s.buf s.idx.toNat b }).emit
      (.packet s.len (payloadOf s.cfg s.len (pack q)))).freshSearch
  | .payDrop b, t => ∃ q r, CompletedBits s b q ∧ recvOf s.cfg s.len (pack q) = some r ∧
    t = ((State.crcEngineRan { s with buf := Memory.write s.buf s.idx.toNat b }).emit
      (.crcMismatch s.len (calcOf s.cfg s.len (pack q)) r)).freshSearch
  | .illegal, _ => False

/-- R140: PAY.STORE of a bit for which there is a cell. -/
theorem exec_payStore {s : State} (b : Bit) (h : s.idx.toNat < bufCap s.cfg) :
    exec (.payStore b) s = .next
      { s with buf := Memory.write s.buf s.idx.toNat b, idx := s.idx + 1#12, out := none } := by
  simp only [exec, execPayStore, s.quiet.memWrite_ok b h]
  rfl

/-- R183: PAY.EMIT of the bit that completes the buffer to `q`. -/
theorem CompletedBits.exec_payEmit {s : State} {b : Bit} {q : List Bit} (h : CompletedBits s b q) :
    exec (.payEmit b) s = .next (State.emit { s with buf := Memory.write s.buf s.idx.toNat b }
      (.packet s.len (payloadOf s.cfg s.len (pack q)))).freshSearch := by
  simp only [exec, execPayEmit, h.completion]

/-- R184: PAY.PASS of the bit that completes the buffer to `q`, where `q` has a trailer. -/
theorem CompletedBits.exec_payPass {s : State} {b : Bit} {q : List Bit} {r : Word}
    (h : CompletedBits s b q) (hr : recvOf s.cfg s.len (pack q) = some r) :
    exec (.payPass b) s = .next
      ((State.crcEngineRan { s with buf := Memory.write s.buf s.idx.toNat b }).emit
        (.packet s.len (payloadOf s.cfg s.len (pack q)))).freshSearch := by
  simp only [exec, execPayPass, h.completion, hr]

/-- R185: PAY.DROP of the bit that completes the buffer to `q`, where `q` has a trailer. -/
theorem CompletedBits.exec_payDrop {s : State} {b : Bit} {q : List Bit} {r : Word}
    (h : CompletedBits s b q) (hr : recvOf s.cfg s.len (pack q) = some r) :
    exec (.payDrop b) s = .next
      ((State.crcEngineRan { s with buf := Memory.write s.buf s.idx.toNat b }).emit
        (.crcMismatch s.len (calcOf s.cfg s.len (pack q)) r)).freshSearch := by
  simp only [exec, execPayDrop, h.completion, hr]
  rfl

/-- An operation answers a next state exactly when its condition holds, and then the one of `Post`. -/
theorem exec_next_iff {s t : State} (i : Instr) : exec i s = .next t ↔ Post s i t := by
  have next_iff {u v : State} :
      (Host.Outcome.next u : Host.Outcome State Fault Refusal) = .next v ↔ v = u := by
    rw [Host.Outcome.next.injEq, eq_comm]
  cases i with
  | reset | hold | srchShift b | srchSync b | lenShift b | lenOpen b | lenEmpty b | lenOvf b =>
    exact next_iff
  | payStore b =>
    exact ⟨execPayStore_next, fun ⟨hi, ht⟩ => by rw [exec_payStore b hi, ht]⟩
  | payEmit b =>
    exact ⟨execPayEmit_next, fun ⟨q, hq, ht⟩ => by rw [hq.exec_payEmit, ht]⟩
  | payPass b =>
    exact ⟨execPayPass_next, fun ⟨q, r, hq, hr, ht⟩ => by rw [hq.exec_payPass hr, ht]⟩
  | payDrop b =>
    exact ⟨execPayDrop_next, fun ⟨q, r, hq, hr, ht⟩ => by rw [hq.exec_payDrop hr, ht]⟩
  | illegal => exact ⟨nofun, nofun⟩

/-! ### What the operations can write and output (R35, R226) -/

/-- A cell that a write changes is the cell written. -/
theorem Memory.eq_of_read_write_ne {m : Memory} {a i : Nat} {v : Bit}
    (h : Memory.read (Memory.write m a v) i ≠ Memory.read m i) : i = a :=
  by_contra fun hne => h (Memory.read_write_other m v hne)

section Frame

variable {i : Instr} {s t : State}

/-- R29: no operation writes the configuration. -/
theorem exec_cfg (h : exec i s = .next t) : t.cfg = s.cfg := by
  rw [exec_next_iff] at h
  cases i with
  | reset | hold | srchShift b | srchSync b | lenShift b | lenOpen b | lenEmpty b | lenOvf b =>
    subst h; rfl
  | payStore b => obtain ⟨-, rfl⟩ := h; rfl
  | payEmit b => obtain ⟨q, -, rfl⟩ := h; rfl
  | payPass b | payDrop b => obtain ⟨q, r, -, -, rfl⟩ := h; rfl
  | illegal => exact h.elim

/-- R52: an operation leaves the buffer as it is, or writes the cell `IDX`, which is one of the buffer's;
only the PAY operations do. -/
theorem exec_buf (h : exec i s = .next t) : t.buf = s.buf ∨ ∃ b,
    (i = .payStore b ∨ i = .payEmit b ∨ i = .payPass b ∨ i = .payDrop b) ∧
      s.idx.toNat < bufCap s.cfg ∧ t.buf = Memory.write s.buf s.idx.toNat b := by
  rw [exec_next_iff] at h
  cases i with
  | reset | hold | srchShift b | srchSync b | lenShift b | lenOpen b | lenEmpty b | lenOvf b =>
    subst h; exact .inl rfl
  | payStore b => obtain ⟨hi, rfl⟩ := h; exact .inr ⟨b, by simp, hi, rfl⟩
  | payEmit b => obtain ⟨q, hq, rfl⟩ := h; exact .inr ⟨b, by simp, hq.idxInCap, rfl⟩
  | payPass b | payDrop b =>
    obtain ⟨q, r, hq, -, rfl⟩ := h; exact .inr ⟨b, by simp, hq.idxInCap, rfl⟩
  | illegal => exact h.elim

/-- The registers but `BUF`, each with the operations that can change it (R35). -/
theorem exec_registers (h : exec i s = .next t) :
    t.pending = s.pending ∧
    (t.len ≠ s.len → ∃ b, i = .lenOpen b ∨ i = .lenEmpty b ∨ i = .lenOvf b) ∧
    ((t.crc ≠ s.crc ∨ t.crcRuns ≠ s.crcRuns) → ∃ b, i = .payPass b ∨ i = .payDrop b) ∧
    (t.st ≠ s.st → i ≠ .hold ∧ ∀ b, i ≠ .srchShift b ∧ i ≠ .lenShift b ∧ i ≠ .payStore b) ∧
    (t.sr ≠ s.sr → i ≠ .hold ∧ ∀ b, i ≠ .payStore b) ∧
    (t.idx ≠ s.idx → i ≠ .hold ∧ ∀ b, i ≠ .srchShift b) := by
  rw [exec_next_iff] at h
  cases i with
  | reset | hold | srchShift b | srchSync b | lenShift b | lenOpen b | lenEmpty b | lenOvf b =>
    subst h; simp
  | payStore b => obtain ⟨-, rfl⟩ := h; simp
  | payEmit b => obtain ⟨q, -, rfl⟩ := h; simp
  | payPass b | payDrop b => obtain ⟨q, r, -, -, rfl⟩ := h; simp
  | illegal => exact h.elim

/-- R226: an operation that outputs an event ends in a fresh search, with the event's length in `LEN`. -/
theorem exec_event {e : Event} (h : exec i s = .next t) (ho : t.out = some e) :
    FreshSearch t ∧ t.len = e.len := by
  have closes {u : State} {e' : Event} (ht : t = (u.emit e').freshSearch) (hl : u.len = e'.len) :
      FreshSearch t ∧ t.len = e.len := by
    subst ht
    obtain rfl : e' = e := Option.some.inj ho
    exact ⟨⟨rfl, rfl, rfl⟩, hl⟩
  rw [exec_next_iff] at h
  cases i with
  | reset | hold | srchShift b | srchSync b | lenShift b | lenOpen b => subst h; cases ho
  | payStore b => obtain ⟨-, rfl⟩ := h; cases ho
  | lenEmpty b | lenOvf b => exact closes h rfl
  | payEmit b => obtain ⟨q, -, ht⟩ := h; exact closes ht rfl
  | payPass b | payDrop b => obtain ⟨q, r, -, -, ht⟩ := h; exact closes ht rfl
  | illegal => exact h.elim

end Frame

/-! ### The packed bytes of a completed buffer (R141, R181) -/

/-- A list of eight bits or more, with its first byte written out. -/
theorem exists_eight_bits {q : List Bit} (h : 8 ≤ q.length) :
    ∃ b7 b6 b5 b4 b3 b2 b1 b0 q', q = b7 :: b6 :: b5 :: b4 :: b3 :: b2 :: b1 :: b0 :: q' := by
  rcases q with _ | ⟨b7, _ | ⟨b6, _ | ⟨b5, _ | ⟨b4, _ | ⟨b3, _ | ⟨b2, _ | ⟨b1, _ | ⟨b0, q'⟩⟩⟩⟩⟩⟩⟩⟩
  case cons.cons.cons.cons.cons.cons.cons.cons => exact ⟨_, _, _, _, _, _, _, _, _, rfl⟩
  all_goals simp at h

theorem pack_cons (b7 b6 b5 b4 b3 b2 b1 b0 : Bit) (q : List Bit) :
    pack (b7 :: b6 :: b5 :: b4 :: b3 :: b2 :: b1 :: b0 :: q)
      = packByte b7 b6 b5 b4 b3 b2 b1 b0 :: pack q := rfl

/-- Fewer than eight bits fill no byte. -/
theorem pack_of_length_lt {q : List Bit} (h : q.length < 8) : pack q = [] := by
  unfold pack
  split
  · simp only [List.length_cons] at h; omega
  · rfl

/-- Whole bytes are packed one by one. -/
theorem pack_append {p : List Bit} {n : Nat} (hp : p.length = 8 * n) (q : List Bit) :
    pack (p ++ q) = pack p ++ pack q := by
  induction n generalizing p with
  | zero => rw [List.length_eq_zero_iff.mp (by omega : p.length = 0)]; rfl
  | succ n ih =>
    obtain ⟨b7, b6, b5, b4, b3, b2, b1, b0, p', rfl⟩ := exists_eight_bits (q := p) (by omega)
    simp only [List.length_cons] at hp
    simp only [List.cons_append, pack_cons, ih (p := p') (by omega)]

/-- R141: `PACK` makes `n` bytes of `8n` bits. -/
theorem length_pack {q : List Bit} {n : Nat} (hq : q.length = 8 * n) : (pack q).length = n := by
  induction n generalizing q with
  | zero => rw [pack_of_length_lt (by omega), List.length_nil]
  | succ n ih =>
    obtain ⟨b7, b6, b5, b4, b3, b2, b1, b0, q', rfl⟩ := exists_eight_bits (q := q) (by omega)
    simp only [List.length_cons] at hq
    simp only [pack_cons, List.length_cons, ih (q := q') (by omega)]

/-- `PACK` undoes `bits_8`. -/
theorem pack_byteBits : ∀ x : Byte, pack (byteBits x) = [x] := by decide

/-- R57: a 16-bit value arrives as its high byte, then its low byte. -/
theorem bitsOf_sixteen (r : Word) :
    bitsOf 16 r.toNat = byteBits (r.extractLsb' 8 8) ++ byteBits (r.extractLsb' 0 8) := by
  have hbytes : byteBits (r.extractLsb' 8 8) ++ byteBits (r.extractLsb' 0 8)
      = [r.getLsbD 15, r.getLsbD 14, r.getLsbD 13, r.getLsbD 12, r.getLsbD 11, r.getLsbD 10,
         r.getLsbD 9, r.getLsbD 8, r.getLsbD 7, r.getLsbD 6, r.getLsbD 5, r.getLsbD 4,
         r.getLsbD 3, r.getLsbD 2, r.getLsbD 1, r.getLsbD 0] := by simp [byteBits]
  rw [hbytes]
  rfl

/-- The two bytes of a 16-bit value, the received trailer among them. -/
theorem pack_bitsOf_sixteen (r : Word) :
    pack (bitsOf 16 r.toNat) = [r.extractLsb' 8 8, r.extractLsb' 0 8] := by
  rw [bitsOf_sixteen, pack_append (n := 1) rfl, pack_byteBits, pack_byteBits, List.singleton_append]

theorem highByte_append_lowByte (r : Word) :
    (r.extractLsb' 8 8 ++ r.extractLsb' 0 8 : Word) = r := by
  rw [BitVec.extractLsb'_append_extractLsb'_eq_extractLsb' (by rfl)]
  exact BitVec.extractLsb'_eq_self

theorem length_bitsOf (n v : Nat) : (bitsOf n v).length = n := by simp [bitsOf]

namespace CompletedBits

variable {s : State} {b : Bit}

/-- With a trailer, the packed buffer has two bytes above the payload, which are the received CRC. -/
theorem exists_recvOf {q : List Bit} (h : CompletedBits s b q) (hcrc : s.cfg.hasCrc = true) :
    ∃ r, recvOf s.cfg s.len (pack q) = some r := by
  have hlen : (pack q).length = s.len.toNat + 2 :=
    length_pack (by rw [h.length, nbits, if_pos hcrc]; ring)
  obtain ⟨hi, lo, hd⟩ := List.length_eq_two.mp
    (show ((pack q).drop s.len.toNat).length = 2 by rw [List.length_drop]; omega)
  exact ⟨hi ++ lo, by rw [recvOf, if_pos hcrc, hd]⟩

/-- R181: the packed bytes of a buffer with a trailer are those of the payload and of the trailer. -/
theorem pack_eq {payload : List Bit} {r : Word} (h : CompletedBits s b (payload ++ bitsOf 16 r.toNat))
    (hcrc : s.cfg.hasCrc = true) :
    (pack payload).length = s.len.toNat ∧ pack (payload ++ bitsOf 16 r.toNat)
      = pack payload ++ [r.extractLsb' 8 8, r.extractLsb' 0 8] := by
  have hlen : payload.length = 8 * s.len.toNat := by
    have := h.length
    rw [List.length_append, length_bitsOf, nbits, if_pos hcrc] at this
    omega
  exact ⟨length_pack hlen, by rw [pack_append hlen, pack_bitsOf_sixteen]⟩

/-- R181: the received CRC is the 16-bit value of the trailer. -/
theorem recvOf_eq {payload : List Bit} {r : Word}
    (h : CompletedBits s b (payload ++ bitsOf 16 r.toNat)) (hcrc : s.cfg.hasCrc = true) :
    recvOf s.cfg s.len (pack (payload ++ bitsOf 16 r.toNat)) = some r := by
  obtain ⟨hlen, hpack⟩ := h.pack_eq hcrc
  simp only [recvOf, if_pos hcrc, hpack, List.drop_left' hlen, highByte_append_lowByte]

/-- R182: the CRC is computed over the length byte and the payload. -/
theorem calcOf_eq {payload : List Bit} {r : Word}
    (h : CompletedBits s b (payload ++ bitsOf 16 r.toNat)) (hcrc : s.cfg.hasCrc = true) :
    calcOf s.cfg s.len (pack (payload ++ bitsOf 16 r.toNat))
      = crc16 (s.len :: pack payload) s.cfg.crcPoly := by
  obtain ⟨hlen, hpack⟩ := h.pack_eq hcrc
  rw [calcOf, payloadOf, if_pos hcrc, hpack, List.take_left' hlen]

/-- R79, R182: the class of a completion, in the completed bits. -/
theorem crcClass_eq {q : List Bit} (h : CompletedBits s b q) : s.crcClass b = .ok
    (if verifyEn s.cfg then
      if recvOf s.cfg s.len (pack q) = some (calcOf s.cfg s.len (pack q)) then 0b01#2 else 0b10#2
    else 0b00#2) := by
  rw [State.crcClass, h.completion]
  split <;> rfl

end CompletedBits

/-- A completion is classed as passed or failed only with a trailer. -/
theorem State.hasCrc_of_crcClass {s : State} {b : Bit} {c : BitVec 2} (h : s.crcClass b = .ok c)
    (hc : c ≠ 0b00#2) : s.cfg.hasCrc = true := by
  unfold State.crcClass at h
  split at h
  next hv => exact (Bool.and_eq_true_iff.mp hv).1
  next => cases h; exact absurd rfl hc

end Sys2Proof.Machine
end

section
/-! SUPPORT. The invariant of R34 is kept, a state that has it can always step, and what a step does with
the registers that R31 does not list as dead depends on them alone. -/

namespace Sys2Proof.Machine

/-! ### The length bits (R120, R121, R122) -/

/-- A length register with a free bit at the top has room for the next bit. -/
theorem State.lenShifted_lt {s : State} {n : Nat} (h : s.sr < 2 ^ n) (b : Bit) :
    s.lenShifted b < 2 ^ (n + 1) := by
  have hb := b.toNat_le
  rw [s.lenShifted_eq b, pow_succ]
  omega

/-- Eight length bits fit the register `SR`, however narrow the sync word is (R23). -/
theorem State.lenShifted_mod {s : State} (h : s.sr < 2 ^ 7) (b : Bit) :
    s.lenShifted b % 2 ^ srWidth s.cfg = s.lenShifted b :=
  Nat.mod_eq_of_lt ((State.lenShifted_lt h b).trans_le
    (Nat.pow_le_pow_right (by omega) (Nat.le_max_right s.cfg.w 8)))

/-- The class of R79 of a length that opens the buffer. -/
theorem lenClass_eq_open_iff (c : Config) (l : Byte) :
    lenClass c l = 0b00#2 ↔ l.toNat ≤ c.maxLen.toNat ∧ 0 < nbits c l := by
  unfold lenClass
  split_ifs with hgt h0 <;> rw [BitVec.lt_def] at hgt
  · simp only [BitVec.reduceEq, false_iff]; omega
  · simp only [BitVec.reduceEq, false_iff]; omega
  · simp only [true_iff]; omega

theorem toNat_add_one_le (i : BitVec 12) : (i + 1#12).toNat ≤ i.toNat + 1 := by
  rw [BitVec.toNat_add]
  exact Nat.mod_le _ _

/-- Counting a bit does not wrap `IDX` before the end of the longest packet. -/
theorem toNat_add_one_of_lt {i : BitVec 12} (h : i.toNat < 2056) :
    (i + 1#12).toNat = i.toNat + 1 := by
  rw [BitVec.toNat_add, BitVec.toNat_one (by omega), Nat.mod_eq_of_lt (by omega)]

/-! ### The invariant, by the values of `ST` (R34) -/

/-- The part of the invariant about the buffer, which does not depend on `ST`: its canonical form and
its capacity (R50, R54). -/
structure SafeBuffer (s : State) : Prop where
  wf : Memory.wf s.buf = true
  inCap : ∀ i v, Memory.read s.buf i = some v → i < bufCap s.cfg

theorem Inv.safeBuffer {s : State} (h : Inv s) : SafeBuffer s := ⟨h.bufWf, h.bufInCap⟩

/-- Every operation keeps the buffer within its capacity: what is written is a cell of it. -/
theorem SafeBuffer.of_exec {i : Instr} {s t : State} (h : SafeBuffer s)
    (he : exec i s = .next t) : SafeBuffer t := by
  have hcap : bufCap t.cfg = bufCap s.cfg := by rw [exec_cfg he]
  rcases exec_buf he with hb | ⟨b, -, hi, hb⟩
  · exact ⟨by rw [hb]; exact h.wf, by rw [hb, hcap]; exact h.inCap⟩
  · refine ⟨by rw [hb]; exact Memory.wf_write _ _ _ h.wf, fun i v hv => ?_⟩
    rw [hb, Memory.read_write] at hv
    rw [hcap]
    split at hv
    · omega
    · exact h.inCap i v hv

section Construction

variable {s : State} (hc : s.cfg.legal = true) (hb : SafeBuffer s)
include hc hb

/-- R34 (b). -/
theorem Inv.of_searching (hst : s.st = stSearching) (hidx : s.idx = 0#12) (hsr : s.sr < 2 ^ s.cfg.w) :
    Inv s where
  cfgLegal := hc
  stLegal := by simp [hst]
  srFits := hsr.trans_le (Nat.pow_le_pow_right (by omega) (Nat.le_max_left s.cfg.w 8))
  bufWf := hb.wf
  bufInCap := hb.inCap
  searching _ := ⟨hidx, hsr⟩
  readingLength h := by simp [hst] at h
  readingPayload h := by simp [hst] at h

/-- R33, R186. -/
theorem FreshSearch.inv (h : FreshSearch s) : Inv s :=
  have ⟨hst, hsr, hidx⟩ := h
  Inv.of_searching hc hb hst hidx (by rw [hsr]; positivity)

/-- R34 (c). -/
theorem Inv.of_readingLength (hst : s.st = stReadingLength) (hidx : s.idx.toNat ≤ 7)
    (hsr : s.sr < 2 ^ s.idx.toNat) : Inv s where
  cfgLegal := hc
  stLegal := by simp [hst]
  srFits := hsr.trans_le (Nat.pow_le_pow_right (by omega)
    (hidx.trans ((by omega : 7 ≤ 8).trans (Nat.le_max_right s.cfg.w 8))))
  bufWf := hb.wf
  bufInCap := hb.inCap
  searching h := by simp [hst] at h
  readingLength _ := ⟨hidx, hsr⟩
  readingPayload h := by simp [hst] at h

/-- R34 (d). -/
theorem Inv.of_readingPayload (hst : s.st = stReadingPayload) (hsr : s.sr < 2 ^ srWidth s.cfg)
    (hlen : s.len.toNat ≤ s.cfg.maxLen.toNat) (hidx : s.idx.toNat < nbits s.cfg s.len)
    (hw : ∀ i < s.idx.toNat, (Memory.read s.buf i).isSome) : Inv s where
  cfgLegal := hc
  stLegal := by simp [hst]
  srFits := hsr
  bufWf := hb.wf
  bufInCap := hb.inCap
  searching h := by simp [hst] at h
  readingLength h := by simp [hst] at h
  readingPayload _ := ⟨hlen, by omega, hidx, hw⟩

end Construction

/-- The invariant is about the registers: the two sides of the host interface are free. -/
theorem Inv.withPorts {s : State} (h : Inv s) (p : List StepInput) (o : Option Event) :
    Inv { s with pending := p, out := o } :=
  ⟨h.cfgLegal, h.stLegal, h.srFits, h.bufWf, h.bufInCap, h.searching, h.readingLength,
    h.readingPayload⟩

/-! ### Every step keeps the invariant (R34) -/

/-- In a state of the invariant, the operation that a step selects leaves one. -/
theorem Inv.of_exec {i : Instr} {inp : StepInput} {s t : State} (h : Inv s) (hi : Selects s inp i)
    (he : exec i s = .next t) : Inv t := by
  have hc : t.cfg.legal = true := by rw [exec_cfg he]; exact h.cfgLegal
  have hb : SafeBuffer t := h.safeBuffer.of_exec he
  rw [exec_next_iff] at he
  cases i with
  | hold => subst he; exact h.withPorts s.pending none
  | reset | lenEmpty b | lenOvf b => subst he; exact FreshSearch.inv hc hb ⟨rfl, rfl, rfl⟩
  | payEmit b => obtain ⟨q, -, rfl⟩ := he; exact FreshSearch.inv hc hb ⟨rfl, rfl, rfl⟩
  | payPass b | payDrop b =>
    obtain ⟨q, r, -, -, rfl⟩ := he; exact FreshSearch.inv hc hb ⟨rfl, rfl, rfl⟩
  | srchShift b =>
    obtain ⟨-, hst, -⟩ := hi
    obtain ⟨hidx, -⟩ := h.searching hst
    obtain ⟨hw, -⟩ := (legal_iff s.cfg).mp h.cfgLegal
    subst he
    exact Inv.of_searching hc hb hst hidx ((Nat.mod_le _ _).trans_lt (s.window_lt b hw))
  | srchSync b => subst he; exact Inv.of_readingLength hc hb rfl (by simp) (by simp)
  | lenShift b =>
    obtain ⟨-, hst, hne⟩ := hi
    obtain ⟨hidx, hsr⟩ := h.readingLength hst
    have hidx' : (s.idx + 1#12).toNat = s.idx.toNat + 1 := toNat_add_one_of_lt (by omega)
    have hne' : s.idx.toNat ≠ 7 := fun h7 => hne (BitVec.eq_of_toNat_eq h7)
    subst he
    refine Inv.of_readingLength hc hb hst ?_ ?_
    · show (s.idx + 1#12).toNat ≤ 7
      omega
    · show s.lenShifted b % 2 ^ srWidth s.cfg < 2 ^ (s.idx + 1#12).toNat
      rw [hidx']
      exact (Nat.mod_le _ _).trans_lt (State.lenShifted_lt hsr b)
  | lenOpen b =>
    obtain ⟨-, -, -, hclass⟩ := hi
    obtain ⟨hlen, hpos⟩ := (lenClass_eq_open_iff _ _).mp hclass
    subst he
    exact Inv.of_readingPayload hc hb rfl (Nat.mod_lt _ (by positivity)) hlen hpos (by simp)
  | payStore b =>
    obtain ⟨-, hst, hne⟩ := hi
    obtain ⟨hlen, -, hidx, hw⟩ := h.readingPayload hst
    have hidx' : (s.idx + 1#12).toNat = s.idx.toNat + 1 :=
      toNat_add_one_of_lt (hidx.trans_le (nbits_le _ _))
    obtain ⟨-, rfl⟩ := he
    refine Inv.of_readingPayload hc hb hst h.srFits hlen ?_ fun i hi => ?_
    · show (s.idx + 1#12).toNat < nbits s.cfg s.len
      omega
    · replace hi : i < (s.idx + 1#12).toNat := hi
      show (Memory.read (Memory.write s.buf s.idx.toNat b) i).isSome
      rw [Memory.read_write]
      split
      · rfl
      · exact hw i (by omega)
  | illegal => exact he.elim

theorem Inv.of_stepIn {s t : State} {inp : StepInput} (h : Inv s) (he : s.stepIn inp = .next t) :
    Inv t := by
  obtain ⟨-, i, hi, hex⟩ := State.stepIn_next he
  exact h.of_exec hi hex

/-! ### In a state of the invariant there is always a next state (R201, R223) -/

/-- The operation that a step selects has a next state. -/
theorem Inv.exec_next {i : Instr} {inp : StepInput} {s : State} (h : Inv s) (hi : Selects s inp i) :
    ∃ t, exec i s = .next t := by
  cases i with
  | reset | hold | srchShift b | srchSync b | lenShift b | lenOpen b | lenEmpty b | lenOvf b =>
    exact ⟨_, rfl⟩
  | payStore b =>
    obtain ⟨-, hst, -⟩ := hi
    obtain ⟨hlen, -, hidx, -⟩ := h.readingPayload hst
    exact ⟨_, exec_payStore b (hidx.trans_le (nbits_le_bufCap _ _ hlen))⟩
  | payEmit b =>
    obtain ⟨-, hst, hlast, -⟩ := hi
    obtain ⟨q, hq⟩ := h.completedBits hst hlast b
    exact ⟨_, hq.exec_payEmit⟩
  | payPass b | payDrop b =>
    obtain ⟨-, hst, hlast, hclass⟩ := hi
    obtain ⟨q, hq⟩ := h.completedBits hst hlast b
    obtain ⟨r, hr⟩ := hq.exists_recvOf (State.hasCrc_of_crcClass hclass (by decide))
    exact ⟨_, (exec_next_iff _).mpr ⟨q, r, hq, hr, rfl⟩⟩
  | illegal =>
    obtain ⟨-, -, hst⟩ := hi
    exact absurd hst h.stLegal

/-- Every input selects an operation. -/
theorem Inv.exists_selects {s : State} (h : Inv s) (inp : StepInput) : ∃ i, Selects s inp i := by
  rcases s.selects_or_fault inp with hi | ⟨hst, hlast, b, f, -, hf⟩
  · exact hi
  · obtain ⟨q, hq⟩ := h.completedBits hst hlast b
    rw [hq.crcClass_eq] at hf
    cases hf

/-! ### What is not dead depends on what is not dead only (R31) -/

/-- Two fresh searches with one configuration differ in nothing but dead values. -/
theorem FreshSearch.sameLive {s t : State} (hs : FreshSearch s) (ht : FreshSearch t)
    (hcfg : s.cfg = t.cfg) : SameLive s t := by
  obtain ⟨hst, hsr, -⟩ := hs
  obtain ⟨hst', hsr', -⟩ := ht
  exact ⟨hcfg, by rw [hst, hst'], fun _ => by rw [hsr, hsr'], by simp [hst], by simp [hst]⟩

namespace SameLive

variable {s t : State} {b : Bit}

theorem window_eq (h : SameLive s t) (hst : s.st = stSearching) (b : Bit) :
    t.window b = s.window b := by
  simp only [State.window, h.searching hst, h.cfg]

theorem lenShifted_eq (h : SameLive s t) (hst : s.st = stReadingLength) (b : Bit) :
    t.lenShifted b = s.lenShifted b := by
  obtain ⟨hsr, -⟩ := h.readingLength hst
  simp only [State.lenShifted, hsr]

theorem lenField_eq (h : SameLive s t) (hst : s.st = stReadingLength) (b : Bit) :
    t.lenField b = s.lenField b := by
  simp only [State.lenField, h.lenShifted_eq hst]

/-- The completed buffer is made of the cells below `IDX`, which are live, and the input bit. -/
theorem completedBits (h : SameLive s t) (hst : s.st = stReadingPayload)
    (hlast : s.idx.toNat + 1 = nbits s.cfg s.len) {q : List Bit} (hq : CompletedBits s b q) :
    CompletedBits t b q := by
  obtain ⟨hidx, hlen, hcells⟩ := h.readingPayload hst
  obtain ⟨hi, hn, hl, hbits⟩ := hq
  simp only [h.cfg, hidx, hlen] at hi hn hl hbits hlast
  refine ⟨hi, hn, hl, fun i hin => ?_⟩
  rw [hbits i hin]
  split
  · rfl
  · exact hcells i (by rw [hidx]; omega)

/-- A step selects the same operation from states that agree on what is not dead. -/
theorem selects (h : SameLive s t) (hs : Inv s) {inp : StepInput} {i : Instr}
    (hi : Selects s inp i) : Selects t inp i := by
  have hclass (b : Bit) (hst : s.st = stReadingPayload)
      (hlast : s.idx.toNat + 1 = nbits s.cfg s.len) : t.crcClass b = s.crcClass b := by
    obtain ⟨-, hlen, -⟩ := h.readingPayload hst
    obtain ⟨q, hq⟩ := hs.completedBits hst hlast b
    rw [hq.crcClass_eq, (h.completedBits hst hlast hq).crcClass_eq, h.cfg, hlen]
  cases i with
  | reset | hold => exact hi
  | srchShift b | srchSync b =>
    obtain ⟨hinp, hst, hw⟩ := hi
    exact ⟨hinp, h.st ▸ hst, by rw [h.window_eq hst, ← h.cfg]; exact hw⟩
  | lenShift b =>
    obtain ⟨hinp, hst, hne⟩ := hi
    obtain ⟨-, hidx⟩ := h.readingLength hst
    exact ⟨hinp, h.st ▸ hst, hidx ▸ hne⟩
  | lenOpen b | lenEmpty b | lenOvf b =>
    obtain ⟨hinp, hst, h7, hl⟩ := hi
    obtain ⟨-, hidx⟩ := h.readingLength hst
    exact ⟨hinp, h.st ▸ hst, hidx ▸ h7, by rw [h.lenField_eq hst, ← h.cfg]; exact hl⟩
  | payStore b =>
    obtain ⟨hinp, hst, hne⟩ := hi
    obtain ⟨hidx, hlen, -⟩ := h.readingPayload hst
    exact ⟨hinp, h.st ▸ hst, by rw [← hidx, ← hlen, ← h.cfg]; exact hne⟩
  | payEmit b | payPass b | payDrop b =>
    obtain ⟨hinp, hst, hlast, hc⟩ := hi
    obtain ⟨hidx, hlen, -⟩ := h.readingPayload hst
    exact ⟨hinp, h.st ▸ hst, by rw [← hidx, ← hlen, ← h.cfg]; exact hlast,
      by rw [hclass b hst hlast]; exact hc⟩
  | illegal =>
    obtain ⟨hrst, hvld, hst⟩ := hi
    exact ⟨hrst, hvld, h.st ▸ hst⟩

/-- The return to a fresh search leaves nothing alive but the configuration. -/
theorem freshSearch_of_cfg {u v : State} (h : u.cfg = v.cfg) :
    SameLive u.freshSearch v.freshSearch :=
  FreshSearch.sameLive ⟨rfl, rfl, rfl⟩ ⟨rfl, rfl, rfl⟩ h

/-- The operation a step selects outputs the same event from both states, and they agree afterwards on
what is not dead. -/
theorem exec_next (h : SameLive s t) {inp : StepInput} {i : Instr} (hi : Selects s inp i) {s' : State}
    (he : exec i s = .next s') :
    ∃ t', exec i t = .next t' ∧ t'.out = s'.out ∧ SameLive s' t' := by
  simp only [exec_next_iff] at he ⊢
  cases i with
  | reset =>
    subst he
    exact ⟨_, rfl, rfl, FreshSearch.sameLive ⟨rfl, rfl, rfl⟩ ⟨rfl, rfl, rfl⟩ h.cfg⟩
  | hold =>
    subst he
    exact ⟨_, rfl, rfl, h.cfg, h.st, h.searching, h.readingLength, h.readingPayload⟩
  | srchShift b =>
    obtain ⟨-, hst, -⟩ := hi
    subst he
    exact ⟨_, rfl, rfl, h.cfg, h.st, fun _ => by simp only [h.window_eq hst, h.cfg],
      by simp [hst], by simp [hst]⟩
  | srchSync b =>
    subst he
    exact ⟨_, rfl, rfl, h.cfg, rfl, by simp, by simp, by simp⟩
  | lenShift b =>
    obtain ⟨-, hst, -⟩ := hi
    obtain ⟨-, hidx⟩ := h.readingLength hst
    subst he
    exact ⟨_, rfl, rfl, h.cfg, h.st, by simp [hst],
      fun _ => by simp only [h.lenShifted_eq hst, h.cfg, hidx, and_self], by simp [hst]⟩
  | lenOpen b =>
    obtain ⟨-, hst, -⟩ := hi
    subst he
    exact ⟨_, rfl, rfl, h.cfg, rfl, by simp, by simp, fun _ => ⟨rfl, (h.lenField_eq hst b).symm,
      by simp⟩⟩
  | lenEmpty b =>
    subst he
    exact ⟨_, rfl, rfl, freshSearch_of_cfg h.cfg⟩
  | lenOvf b =>
    obtain ⟨-, hst, -⟩ := hi
    subst he
    exact ⟨_, rfl, by rw [h.lenField_eq hst]; rfl, freshSearch_of_cfg h.cfg⟩
  | payStore b =>
    obtain ⟨-, hst, -⟩ := hi
    obtain ⟨hidx, hlen, hcells⟩ := h.readingPayload hst
    obtain ⟨hcap, rfl⟩ := he
    refine ⟨_, ⟨by rw [← hidx, ← h.cfg]; exact hcap, rfl⟩, rfl, h.cfg, h.st, by simp [hst],
      by simp [hst], fun _ => ⟨by simp only [hidx], hlen, fun i hi => ?_⟩⟩
    replace hi : i < (s.idx + 1#12).toNat := hi
    show Memory.read (Memory.write s.buf _ b) i = Memory.read (Memory.write t.buf _ b) i
    rw [Memory.read_write, Memory.read_write, ← hidx]
    split
    · rfl
    · exact hcells i (by have := toNat_add_one_le s.idx; omega)
  | payEmit b =>
    obtain ⟨-, hst, hlast, -⟩ := hi
    obtain ⟨-, hlen, -⟩ := h.readingPayload hst
    obtain ⟨q, hq, rfl⟩ := he
    refine ⟨_, ⟨q, h.completedBits hst hlast hq, rfl⟩, ?_, freshSearch_of_cfg h.cfg⟩
    rw [← hlen, ← h.cfg]
    rfl
  | payPass b | payDrop b =>
    obtain ⟨-, hst, hlast, -⟩ := hi
    obtain ⟨-, hlen, -⟩ := h.readingPayload hst
    obtain ⟨q, r, hq, hr, rfl⟩ := he
    refine ⟨_, ⟨q, r, h.completedBits hst hlast hq, ?_, rfl⟩, ?_, freshSearch_of_cfg h.cfg⟩
    · rw [← hlen, ← h.cfg]; exact hr
    · rw [← hlen, ← h.cfg]; rfl
  | illegal => exact he.elim

end SameLive

end Sys2Proof.Machine
end

section
/-! SUPPORT. Runs, step by step, and the proofs of the statements about the state: reset, the invariant,
what the operations write, and what is dead. -/

namespace Sys2Proof.Machine

/-! ### Runs (R206) -/

/-- A run whose first step is known. -/
theorem State.runInputs_cons {s t u : State} {inp : StepInput} {ins : List StepInput} {es : List Event}
    (h : s.stepIn inp = .next t) (hrun : t.runInputs ins = some (u, es)) :
    s.runInputs (inp :: ins) = some (u, t.out.toList ++ es) := by
  simp only [State.runInputs, h, hrun]

/-- R31: the runs of two states that agree on what is not dead output the same events and end in two
such states. -/
theorem SameLive.runInputs {s t : State} (h : SameLive s t) (hs : Inv s) (ins : List StepInput) :
    ∃ u v es, s.runInputs ins = some (u, es) ∧ t.runInputs ins = some (v, es) ∧ SameLive u v := by
  induction ins generalizing s t with
  | nil => exact ⟨s, t, [], rfl, rfl, h⟩
  | cons inp ins ih =>
    obtain ⟨i, hi⟩ := hs.exists_selects inp
    obtain ⟨s', he⟩ := hs.exec_next hi
    obtain ⟨t', he', hout, h'⟩ := h.exec_next hi he
    obtain ⟨u, v, es, hu, hv, huv⟩ := ih h' (hs.of_exec hi he)
    have hstep : s.stepIn inp = .next s' := by rw [State.stepIn_of_selects hs.cfgLegal hi, he]
    have hstep' : t.stepIn inp = .next t' := by
      rw [State.stepIn_of_selects (h.cfg ▸ hs.cfgLegal) (h.selects hs hi), he']
    exact ⟨u, v, _, State.runInputs_cons hstep hu, hout ▸ State.runInputs_cons hstep' hv, huv⟩

/-- R34 (d), R144: the run over buffer bits none of which is the last writes them to the next cells. -/
theorem State.runBits_payload {s : State} (q : List Bit) (hc : s.cfg.legal = true)
    (hst : s.st = stReadingPayload) (hlen : s.len.toNat ≤ s.cfg.maxLen.toNat)
    (hq : s.idx.toNat + q.length < nbits s.cfg s.len) :
    ∃ o, s.runBits q = some
      ({ s with buf := Memory.writeBits s.buf s.idx.toNat q,
                idx := s.idx + BitVec.ofNat 12 q.length, out := o }, []) := by
  induction q generalizing s with
  | nil => exact ⟨s.out, by simp [State.runBits, State.runInputs, Memory.writeBits]⟩
  | cons b q ih =>
    rw [List.length_cons] at hq
    have hn := nbits_le s.cfg s.len
    have hidx : (s.idx + 1#12).toNat = s.idx.toNat + 1 := toNat_add_one_of_lt (by omega)
    have hsel : Selects s (.ofBit b) (.payStore b) := ⟨rfl, hst, by omega⟩
    have hstep := (State.stepIn_of_selects hc hsel).trans
      (exec_payStore b (by have := nbits_le_bufCap _ _ hlen; omega))
    obtain ⟨o, hrun⟩ := ih (hc := hc) (hst := hst) (hlen := hlen)
      (s := { s with buf := Memory.write s.buf s.idx.toNat b, idx := s.idx + 1#12, out := none })
      (by simp only [hidx]; omega)
    refine ⟨o, (State.runInputs_cons hstep hrun).trans ?_⟩
    have hcount : s.idx + 1#12 + BitVec.ofNat 12 q.length = s.idx + BitVec.ofNat 12 (q.length + 1) := by
      rw [BitVec.add_assoc, ← BitVec.ofNat_add, Nat.add_comm 1]
    simp only [hidx, hcount, Memory.writeBits, List.length_cons, Option.toList_none, List.nil_append]

/-- R226: a step that outputs an event ends in a fresh search, with the event's length in `LEN`. -/
theorem step_event {s t : State} {e : Event} (h : step s = .next t) (ho : t.out = some e) :
    FreshSearch t ∧ t.len = e.len := by
  rw [step_eq_stepIn] at h
  obtain ⟨-, i, -, he⟩ := State.stepIn_next h
  exact exec_event he ho

theorem step_cfg {s t : State} (h : step s = .next t) : t.cfg = s.cfg := by
  rw [step_eq_stepIn] at h
  obtain ⟨-, i, -, he⟩ := State.stepIn_next h
  rw [exec_cfg he, State.takeInput_cfg]

theorem Inv.of_step {s t : State} (h : Inv s) (he : step s = .next t) : Inv t :=
  (h.withPorts s.pending.tail s.out).of_stepIn (step_eq_stepIn s ▸ he)

/-! ### The cells after a PAY operation (R144) -/

/-- R52: a completion writes the input bit to the cell `IDX` and leaves every other cell alone. -/
theorem read_stored {s t : State} {b : Bit} (h : t.buf = Memory.write s.buf s.idx.toNat b) :
    Memory.read t.buf s.idx.toNat = some b ∧
      ∀ a, a ≠ s.idx.toNat → Memory.read t.buf a = Memory.read s.buf a := by
  rw [h]
  exact ⟨Memory.read_write_same _ _ _, fun a ha => Memory.read_write_other _ _ ha⟩

/-- R181: without a trailer there is no received CRC. -/
theorem recvOf_of_hasCrc_eq_false {c : Config} (h : c.hasCrc = false) (l : Byte) (packed : List Byte) :
    recvOf c l packed = none := by
  simp [recvOf, h]

end Sys2Proof.Machine

/-! ### The statements -/

namespace Sys2Proof.Proofs

open Sys2Proof.Machine

/-- Settles O26: a step performs an operation it selects, and each of those keeps the invariant
(`Inv.of_exec`). -/
theorem everyStepKeepsTheInvariant : Obligations.EveryStepKeepsTheInvariant :=
  fun _ _ hs he => hs.of_step he

/-- Settles O13: the result is that of `Post`; with at most seven length bits in `SR` the truncation to
the register's width loses nothing. -/
theorem lenShiftTakesALengthBit : Obligations.LenShiftTakesALengthBit := by
  refine ⟨fun _ _ => rfl, fun w hw => ?_, fun b s hc hst hidx hsr => ?_⟩
  · exact decode_of_matches (r := ⟨0xF8#8, 0x50#8, .lenShift⟩) (by simp [selectorTable]) hw
  · have hne : s.idx ≠ 7#12 := fun h => by simp [h] at hidx
    rw [State.stepIn_of_selects (i := .lenShift b) hc ⟨rfl, hst, hne⟩,
      (exec_next_iff (.lenShift b)).mpr rfl, State.lenShifted_mod hsr]
    rfl

/-- Settles O14: the eighth length bit gives the class that opens the buffer, and all eight fit `SR`. -/
theorem lenOpenOpensTheBuffer : Obligations.LenOpenOpensTheBuffer := by
  refine ⟨fun _ _ => rfl, fun w hw => ?_, fun b s l hc hst hidx hsr hl hle hpos => ?_⟩
  · exact decode_of_matches (r := ⟨0xFE#8, 0x58#8, .lenOpen⟩) (by simp [selectorTable]) hw
  · have hlen : (s.lenField b).toNat = l := (State.lenField_toNat hsr b).trans hl.symm
    have hclass : lenClass s.cfg (s.lenField b) = 0b00#2 :=
      (lenClass_eq_open_iff _ _).mpr (by rw [nbits, hlen]; exact ⟨hle, hpos⟩)
    rw [State.stepIn_of_selects (i := .lenOpen b) hc ⟨rfl, hst, hidx, hclass⟩,
      (exec_next_iff (.lenOpen b)).mpr rfl, State.lenShifted_mod hsr, hl]
    rfl

/-- Settles O19: a buffer with a trailer packs to the payload's bytes and the two of the trailer, which
decide the class of the completion. -/
theorem payPassOutputsTheVerifiedPayload : Obligations.PayPassOutputsTheVerifiedPayload := by
  refine ⟨fun b s q e hq hcrc he => ?_, fun b s t h => ?_, fun w hw => ?_,
    fun b s q payload hc hst hlast hcrc hcheck hq hpay => ?_, fun b s q hq hcrc => ?_⟩
  · obtain ⟨r, hr⟩ := hq.exists_recvOf hcrc
    refine ⟨Config.freeCrc s.crcRuns, s.crcRuns + 1, ?_⟩
    rw [hq.exec_payPass hr, payloadOf, if_pos hcrc, ← he]
    rfl
  · obtain ⟨q, r, -, -, rfl⟩ := execPayPass_next h
    exact read_stored rfl
  · exact decode_of_matches (r := ⟨0xFE#8, 0x6A#8, .payPass⟩) (by simp [selectorTable]) hw
  · subst hpay
    have hclass : s.crcClass b = .ok 0b01#2 := by
      rw [hq.crcClass_eq, if_pos (by simp [verifyEn, hcrc, hcheck]), hq.recvOf_eq hcrc,
        hq.calcOf_eq hcrc, if_pos rfl]
    exact State.stepIn_of_selects hc ⟨rfl, hst, hlast, hclass⟩
  · simp only [exec, execPayPass, hq.completion, recvOf_of_hasCrc_eq_false hcrc]

/-- Settles O20: as PAY.PASS, where the trailer is not the CRC that is computed. -/
theorem payDropRaisesCrcMismatch : Obligations.PayDropRaisesCrcMismatch := by
  refine ⟨fun b s q payload r e hq hcrc hpay he => ?_, fun b s t h => ?_, fun w hw => ?_,
    fun b s q payload r hc hst hlast hcrc hcheck hq hpay hne => ?_, fun b s q hq hcrc => ?_⟩
  · subst hpay
    refine ⟨Config.freeCrc s.crcRuns, s.crcRuns + 1, ?_⟩
    rw [hq.exec_payDrop (hq.recvOf_eq hcrc), hq.calcOf_eq hcrc, ← he]
    rfl
  · obtain ⟨q, r, -, -, rfl⟩ := execPayDrop_next h
    exact read_stored rfl
  · exact decode_of_matches (r := ⟨0xFE#8, 0x6C#8, .payDrop⟩) (by simp [selectorTable]) hw
  · subst hpay
    have hclass : s.crcClass b = .ok 0b10#2 := by
      rw [hq.crcClass_eq, if_pos (by simp [verifyEn, hcrc, hcheck]), hq.recvOf_eq hcrc,
        hq.calcOf_eq hcrc, if_neg (fun h => hne (Option.some.inj h).symm)]
    exact State.stepIn_of_selects hc ⟨rfl, hst, hlast, hclass⟩
  · simp only [exec, execPayDrop, hq.completion, recvOf_of_hasCrc_eq_false hcrc]

/-- Settles O29: the registers one by one, and the one cell that an operation can write. -/
theorem operationsWriteOnlyWhatTheMatrixLists : Obligations.OperationsWriteOnlyWhatTheMatrixLists := by
  intro i s t h
  obtain ⟨hpending, hlen, hcrc, hst, hsr, hidx⟩ := exec_registers h
  refine ⟨exec_cfg h, hpending, hlen, fun a ha => ?_, hcrc, hst, hsr, hidx⟩
  rcases exec_buf h with hb | ⟨b, hi, -, hb⟩
  · exact absurd (by rw [hb]) ha
  · exact ⟨Memory.eq_of_read_write_ne (hb ▸ ha), b, hi⟩

/-- Settles O33: an event leaves a fresh search and two fresh searches differ in dead values only, on
which no later event depends. -/
theorem everyEventEndsInAFreshSearch : Obligations.EveryEventEndsInAFreshSearch := by
  refine ⟨fun s t h ho => ?_, fun s s' t u e l p h ho _ h' ho' hcfg => ?_, fun b s t u ht hu => ?_⟩
  · obtain ⟨e, he⟩ := Option.ne_none_iff_exists'.mp ho
    obtain ⟨hf, -⟩ := step_event h he
    exact hf
  · obtain ⟨hf, hlen⟩ := step_event h ho
    obtain ⟨hf', hlen'⟩ := step_event h' ho'
    have hcfg' : t.cfg = u.cfg := by rw [step_cfg h, step_cfg h', hcfg]
    have hlive : SameLive t u := hf.sameLive hf' hcfg'
    obtain ⟨hst, hsr, hidx⟩ := hf
    obtain ⟨hst', hsr', hidx'⟩ := hf'
    refine ⟨hlive.st, by rw [hsr, hsr'], by rw [hidx, hidx'], hcfg', fun hl => ?_, fun hs _ ins => ?_⟩
    · rw [hlen, hlen', hl]; rfl
    · obtain ⟨t', u', es, hrun, hrun', -⟩ := hlive.runInputs (hs.of_step h) ins
      exact ⟨t', u', es, hrun, hrun'⟩
  · obtain ⟨q, r, -, -, rfl⟩ := execPayDrop_next ht
    obtain ⟨q', r', -, -, rfl⟩ := execPayPass_next hu
    rfl

/-- Settles O41: the run writes the bits to consecutive cells, and a run of writes reads back as such. -/
theorem payloadBitsAreStoredInOrder : Obligations.PayloadBitsAreStoredInOrder := by
  intro s q hc hst hlen hq
  obtain ⟨o, hrun⟩ := State.runBits_payload q hc hst hlen hq
  refine ⟨_, hrun, rfl, fun k hk => ?_, fun a ha => ?_⟩
  · rw [Memory.read_writeBits, if_pos (by omega), Nat.add_sub_cancel_left]
  · rw [Memory.read_writeBits, if_neg (by omega)]

/-- Settles O45, by induction on the inputs: a step keeps the agreement on what is not dead. -/
theorem deadStateIsNeverOutput : Obligations.DeadStateIsNeverOutput :=
  fun _ _ ins hs _ h => h.runInputs hs ins

/-- Settles O24: each value is read off the reset state. -/
theorem resetStateValues : Obligations.ResetStateValues := ⟨rfl, rfl, rfl, rfl, rfl, rfl, rfl⟩

/-- Settles O25: reset is a fresh search with an empty buffer. -/
theorem invariantHoldsAtReset : Obligations.InvariantHoldsAtReset := by
  have hbuf (c : Config) : SafeBuffer { State.reset with cfg := c } := ⟨Memory.wf_reset, nofun⟩
  have hinv (c : Config) (hc : c.legal = true) : Inv { State.reset with cfg := c } :=
    FreshSearch.inv hc (hbuf c) ⟨rfl, rfl, rfl⟩
  exact ⟨hinv Config.atReset (by decide), hinv⟩

end Sys2Proof.Proofs
end

section
/-! SUPPORT. Where the reads of a completion stop (R50, R55), where each bit of a wire frame stands (R57,
R71), and the proofs of three statements: PAY.STORE, the stops of the PAY operations, the frame. -/

namespace Sys2Proof.Machine

/-! ### The reads and the completions that stop (R50, R55) -/

/-- A written cell of the buffer can be read. -/
theorem State.exists_memRead_eq_ok {s : State} {i : Nat} (hi : i < bufCap s.cfg)
    (hw : (Memory.read s.buf i).isSome) : ∃ v, s.memRead i = .ok v := by
  rcases s.memRead_cases i with ⟨v, -, -, he⟩ | ⟨-, hv, -⟩ | ⟨hi', -⟩
  · exact ⟨v, he⟩
  · simp [hv] at hw
  · omega

/-- R55: a cell of the buffer that nothing has written has no value. -/
theorem State.memRead_eq_unwrittenCell {s : State} {i : Nat} (hi : i < bufCap s.cfg)
    (hw : Memory.read s.buf i = none) : s.memRead i = .error (.unwrittenCell i) := by
  rw [State.memRead, if_pos hi, hw]

/-- R50: there is no cell at or above `CAP`. -/
theorem State.memRead_eq_noSuchCell {s : State} {i : Nat} (hi : bufCap s.cfg ≤ i) :
    s.memRead i = .error (.noSuchCell i) := if_neg (by omega)

/-- A run of reads stops at the first cell that cannot be read. -/
theorem State.memReadFrom_eq_error {s : State} {i n k : Nat} {f : Fault} (hk : k < n)
    (hf : s.memRead (i + k) = .error f) (hok : ∀ j < k, ∃ v, s.memRead (i + j) = .ok v) :
    s.memReadFrom i n = .error f := by
  induction n generalizing i k with
  | zero => omega
  | succ n ih =>
    cases k with
    | zero => simp only [State.memReadFrom, show s.memRead i = .error f from hf]
    | succ k =>
      obtain ⟨v, hv⟩ := hok 0 (by omega)
      have hrest : s.memReadFrom (i + 1) n = .error f :=
        ih (k := k) (by omega) (by rw [← hf]; congr 1; omega)
          (fun j hj => by rw [Nat.add_right_comm]; exact hok (j + 1) (by omega))
      simp only [State.memReadFrom, show s.memRead i = .ok v from hv, hrest]

/-- A completion for whose bit there is no cell. -/
theorem State.completion_eq_noSuchCell {s : State} (b : Bit) (h : bufCap s.cfg ≤ s.idx.toNat) :
    s.completion b = .error (.noSuchCell s.idx.toNat) := by
  rw [State.completion, s.memWrite_error b h]

/-- R142: once its bit is stored, a completion stops at the first allocated cell that cannot be read; the
cell of the bit itself always can. -/
theorem State.completion_eq_error {s : State} {b : Bit} {k : Nat} {f : Fault}
    (hi : s.idx.toNat < bufCap s.cfg) (hk : k < nbits s.cfg s.len) (hcap : k ≤ bufCap s.cfg)
    (hw : ∀ i < k, i ≠ s.idx.toNat → (Memory.read s.buf i).isSome)
    (hf : State.memRead { s with buf := Memory.write s.buf s.idx.toNat b } k = .error f) :
    s.completion b = .error f := by
  have hread : State.memReadFrom { s with buf := Memory.write s.buf s.idx.toNat b } 0
      (nbits s.cfg s.len) = .error f := by
    refine State.memReadFrom_eq_error hk (by rwa [Nat.zero_add]) fun j hj => ?_
    refine State.exists_memRead_eq_ok (show 0 + j < bufCap s.cfg by omega) ?_
    rw [Nat.zero_add, Memory.read_write]
    split
    · rfl
    · exact hw j hj ‹_›
  rw [State.completion, s.memWrite_ok b hi]
  simp only [hread]

/-- The three completing operations stop where the completion does. -/
theorem exec_fault_of_completion {s : State} {b : Bit} {f : Fault} (h : s.completion b = .error f) :
    exec (.payEmit b) s = .fault f ∧ exec (.payPass b) s = .fault f ∧
      exec (.payDrop b) s = .fault f := by
  simp only [exec, execPayEmit, execPayPass, execPayDrop, h, and_self]

/-- PAY.STORE of a bit for which there is no cell. -/
theorem exec_payStore_fault {s : State} (b : Bit) (h : bufCap s.cfg ≤ s.idx.toNat) :
    exec (.payStore b) s = .fault (.noSuchCell s.idx.toNat) := by
  simp only [exec, execPayStore, s.quiet.memWrite_error b h]

/-! ### The bits of a frame (R57, R71) -/

theorem getElem?_bitsOf {n k : Nat} (v : Nat) (h : k < n) :
    (bitsOf n v)[k]? = some (v.testBit (n - 1 - k)) := by
  rw [bitsOf, List.getElem?_map, List.getElem?_range h, Option.map_some]

theorem byteBits_eq_bitsOf (x : Byte) : byteBits x = bitsOf 8 x.toNat := rfl

theorem bytesBits_cons (x : Byte) (bs : List Byte) : bytesBits (x :: bs) = byteBits x ++ bytesBits bs :=
  List.flatMap_cons

theorem length_bytesBits (bs : List Byte) : (bytesBits bs).length = 8 * bs.length := by
  induction bs with
  | nil => rfl
  | cons x bs ih =>
    rw [bytesBits_cons, List.length_append, byteBits_eq_bitsOf, length_bitsOf, ih, List.length_cons]
    ring

/-- R57: the bits of byte `k` start at `8k`, the most significant first. -/
theorem getElem?_bytesBits {bs : List Byte} {k j : Nat} {x : Byte} (hk : bs[k]? = some x) (hj : j < 8) :
    (bytesBits bs)[8 * k + j]? = some (x.getLsbD (7 - j)) := by
  induction bs generalizing k with
  | nil => simp at hk
  | cons y bs ih =>
    have hlen : (byteBits y).length = 8 := rfl
    rw [bytesBits_cons]
    cases k with
    | zero =>
      obtain rfl : y = x := by simpa using hk
      rw [List.getElem?_append_left (by omega), Nat.mul_zero, Nat.zero_add]
      exact getElem?_bitsOf y.toNat hj
    | succ k =>
      rw [List.getElem?_append_right (by omega), hlen, show 8 * (k + 1) + j - 8 = 8 * k + j by omega]
      exact ih (by simpa using hk)

/-- A field of a bit sequence: with `o` bits before it, its bit `k` is bit `o + k` of the whole. -/
theorem getElem?_field {pre field : List Bit} {o k : Nat} {v : Bit} (rest : List Bit)
    (ho : pre.length = o) (hk : field[k]? = some v) : (pre ++ field ++ rest)[o + k]? = some v := by
  obtain ⟨hlt, -⟩ := List.getElem?_eq_some_iff.mp hk
  rw [List.append_assoc, List.getElem?_append_right (by omega), ho, Nat.add_sub_cancel_left,
    List.getElem?_append_left hlt, hk]

theorem length_frameX (c : Config) (l : Byte) (payload : List Byte) (t : Word) :
    (frameX c l payload t).length
      = c.w + 8 + 8 * payload.length + (if c.hasCrc then 16 else 0) := by
  have htrailer : (if c.hasCrc then bitsOf 16 t.toNat else []).length = if c.hasCrc then 16 else 0 := by
    split
    · exact length_bitsOf 16 t.toNat
    · rfl
  simp only [frameX, List.length_append, byteBits_eq_bitsOf, length_bitsOf, length_bytesBits, htrailer]

end Sys2Proof.Machine

/-! ### The statements -/

namespace Sys2Proof.Proofs

open Sys2Proof.Machine

/-- Settles O17: a buffer bit below the last one has its cell, because the admitted packet fits the
buffer (`nbits_le_bufCap`). -/
theorem payStoreWritesOneCell : Obligations.PayStoreWritesOneCell := by
  refine ⟨fun b s hi => exec_payStore b hi, fun b s t h => ?_, fun w hw => ?_,
    fun b s hc hst hlen hidx => ?_⟩
  · obtain ⟨-, rfl⟩ := execPayStore_next h
    exact read_stored rfl
  · exact decode_of_matches (r := ⟨0xF8#8, 0x60#8, .payStore⟩) (by simp [selectorTable]) hw
  · have hcap := nbits_le_bufCap s.cfg s.len hlen
    rw [State.stepIn_of_selects (i := .payStore b) hc ⟨rfl, hst, by omega⟩,
      exec_payStore b (by omega)]

/-- Settles O22: each operation stops at the write of its bit, or at the first allocated cell that cannot
be read: one without a value, or the one at `CAP`. -/
theorem payOperationsStopOutsideTheBuffer : Obligations.PayOperationsStopOutsideTheBuffer := by
  refine ⟨fun b s hi => ?_, fun b s k hi hk hcap hne hnone hw => ?_, fun b s hi hk hw => ?_⟩
  · exact ⟨exec_payStore_fault b hi, exec_fault_of_completion (State.completion_eq_noSuchCell b hi)⟩
  · refine exec_fault_of_completion (State.completion_eq_error hi hk hcap.le hw ?_)
    exact State.memRead_eq_unwrittenCell hcap (by rw [Memory.read_write_other _ _ hne, hnone])
  · refine exec_fault_of_completion (State.completion_eq_error hi hk le_rfl hw ?_)
    exact State.memRead_eq_noSuchCell le_rfl

/-- Settles O55: each field is found by the number of bits before it (`getElem?_field`), and inside it
the most significant bit comes first. -/
theorem frameLayout : Obligations.FrameLayout := by
  intro c l payload t
  have hsync : (bitsOf c.w c.syncPattern).length = c.w := length_bitsOf _ _
  have hheader : (bitsOf c.w c.syncPattern ++ byteBits l).length = c.w + 8 := by
    rw [List.length_append, hsync]; rfl
  have hbody : (bitsOf c.w c.syncPattern ++ byteBits l ++ bytesBits payload).length
      = c.w + 8 + 8 * payload.length := by rw [List.length_append, hheader, length_bytesBits]
  refine ⟨length_frameX c l payload t, fun k hk => ?_, fun k hk => ?_, fun k j x hx hj => ?_,
    fun hcrc k hk => ?_⟩
  · rw [frameX, List.append_assoc, List.append_assoc, List.getElem?_append_left (by omega)]
    exact getElem?_bitsOf c.syncPattern hk
  · rw [frameX, List.append_assoc]
    exact getElem?_field _ hsync (getElem?_bitsOf l.toNat hk)
  · exact getElem?_field _ hheader (getElem?_bytesBits hx hj)
  · rw [frameX, if_pos hcrc, ← List.append_nil (_ ++ bitsOf 16 t.toNat)]
    exact getElem?_field [] hbody (getElem?_bitsOf t.toNat hk)

end Sys2Proof.Proofs
end

section
/-! SUPPORT. The selector word and its decoder (R80, R83): which bit holds which field, and which words
name an operation; and the proofs of the statements about them. -/

namespace Sys2Proof.Machine

/-! ### The fields of the selector word (R80) -/

section Fields

variable (rst vld : Bit) (st : BitVec 2) (p : Bit) (c : BitVec 2) (b : Bit)

theorem selWord_rst : (selWord rst vld st p c b).getLsbD 7 = rst := by
  simp only [selWord, BitVec.getLsbD_append, BitVec.getLsbD_ofBool]
  simp

theorem selWord_vld : (selWord rst vld st p c b).getLsbD 6 = vld := by
  simp only [selWord, BitVec.getLsbD_append, BitVec.getLsbD_ofBool]
  simp

theorem selWord_st : (selWord rst vld st p c b).extractLsb' 4 2 = st := by
  rw [selWord, BitVec.extractLsb'_append_eq_of_le (by omega),
    BitVec.extractLsb'_append_eq_of_le (by omega), BitVec.extractLsb'_append_eq_of_le (by omega)]
  exact BitVec.extractLsb'_append_eq_right

theorem selWord_p : (selWord rst vld st p c b).getLsbD 3 = p := by
  simp only [selWord, BitVec.getLsbD_append, BitVec.getLsbD_ofBool]
  simp

theorem selWord_c : (selWord rst vld st p c b).extractLsb' 1 2 = c := by
  rw [selWord, BitVec.extractLsb'_append_eq_of_le (by omega)]
  exact BitVec.extractLsb'_append_eq_right

theorem selWord_b : (selWord rst vld st p c b).getLsbD 0 = b := by
  simp only [selWord, BitVec.getLsbD_append, BitVec.getLsbD_ofBool]
  simp

end Fields

/-- Every byte is the selector word of its six fields. -/
theorem exists_eq_selWord (w : BitVec 8) : ∃ rst vld st p c b, w = selWord rst vld st p c b :=
  ⟨w.getLsbD 7, w.getLsbD 6, w.extractLsb' 4 2, w.getLsbD 3, w.extractLsb' 1 2, w.getLsbD 0, by
    revert w; decide⟩

/-! ### Which words name an operation (R80, R83) -/

/-- R83: the words without semantics. -/
def reservedWords : List (BitVec 8) := [0x5E#8, 0x5F#8, 0x6E#8, 0x6F#8]

theorem class_of_mem_reservedWords :
    ∀ w ∈ reservedWords, w.extractLsb' 1 2 = 0b11#2 := by decide

/-- No row of the table has a word without semantics. -/
theorem filter_matches_of_mem_reservedWords :
    ∀ w ∈ reservedWords, (selectorTable.filter (·.matches w)).length = 0 := by decide

theorem decode_of_mem_reservedWords :
    ∀ w ∈ reservedWords, decode w = .error (.noSemantics w) := by decide

theorem class_cases {c : BitVec 2} (h : c ≠ 0b11#2) : c = 0b00#2 ∨ c = 0b01#2 ∨ c = 0b10#2 := by
  revert c; decide

/-- R83: every other word names an operation. -/
theorem exists_decode {w : BitVec 8} (hw : w ∉ reservedWords) : ∃ i, decode w = .ok i := by
  obtain ⟨rst, vld, st, p, c, b, rfl⟩ := exists_eq_selWord w
  cases rst
  case true => exact ⟨_, decode_reset vld st p c b⟩
  cases vld
  case false => exact ⟨_, decode_hold st p c b⟩
  have class_ne {st : BitVec 2} (hst : st = 0b01#2 ∨ st = 0b10#2)
      (hw : selWord false true st true c b ∉ reservedWords) : c ≠ 0b11#2 := by
    rintro rfl
    rcases hst with rfl | rfl <;> exact hw (by cases b <;> decide)
  rcases st_cases st with rfl | rfl | rfl | rfl
  · cases p
    case false => exact ⟨_, decode_srchShift c b⟩
    case true => exact ⟨_, decode_srchSync c b⟩
  · cases p
    case false => exact ⟨_, decode_lenShift c b⟩
    rcases class_cases (class_ne (.inl rfl) hw) with rfl | rfl | rfl
    · exact ⟨_, decode_lenOpen b⟩
    · exact ⟨_, decode_lenEmpty b⟩
    · exact ⟨_, decode_lenOvf b⟩
  · cases p
    case false => exact ⟨_, decode_payStore c b⟩
    rcases class_cases (class_ne (.inr rfl) hw) with rfl | rfl | rfl
    · exact ⟨_, decode_payEmit b⟩
    · exact ⟨_, decode_payPass b⟩
    · exact ⟨_, decode_payDrop b⟩
  · exact ⟨_, decode_illegal p c b⟩

/-- LEN.EMPTY with the bit 1 has one word, the one of 95_test_vectors.md 2.7 that no step has. -/
theorem eq_of_decode_lenEmpty_true :
    ∀ w : BitVec 8, decode w = .ok (.lenEmpty true) → w = 0x5B#8 := by decide

theorem wellFormed_of_decode {w : BitVec 8} {i : Instr} (h : decode w = .ok i) (hw : w ≠ 0x5B#8) :
    i.wellFormed = true := by
  by_contra hi
  cases i with
  | lenEmpty b =>
    cases b with
    | false => exact hi rfl
    | true => exact hw (eq_of_decode_lenEmpty_true w h)
  | _ => exact hi rfl

/-- A word that names an operation belongs to a row of the table, which builds it from bit 0. -/
theorem exists_row_of_decode {w : BitVec 8} {i : Instr} (h : decode w = .ok i) :
    ∃ r ∈ selectorTable, r.matches w = true ∧ r.op (w.getLsbD 0) = i := by
  unfold decode at h
  split at h
  next r hr =>
    exact ⟨r, List.mem_of_find?_eq_some hr,
      List.find?_some (p := fun r : SelRow => r.matches w) hr, Except.ok.inj h⟩
  next => cases h

/-- Of rows that are pairwise apart, at most one has the word. -/
theorem length_filter_matches_le_one {rows : List SelRow} (hrows : rows.Pairwise SelRow.Apart)
    (w : BitVec 8) : (rows.filter (·.matches w)).length ≤ 1 := by
  induction rows with
  | nil => simp
  | cons r rows ih =>
    obtain ⟨hapart, hrows⟩ := List.pairwise_cons.mp hrows
    by_cases hw : r.matches w = true
    · have hnone : rows.filter (·.matches w) = [] :=
        List.filter_eq_nil_iff.mpr fun r' hr' => (hapart r' hr').not_matches hw
      simp [hw, hnone]
    · rw [List.filter_cons_of_neg (p := fun x : SelRow => x.matches w) hw]
      exact ih hrows

/-- R80: a word that names an operation belongs to exactly one row. -/
theorem length_filter_matches_of_decode {w : BitVec 8} {i : Instr} (h : decode w = .ok i) :
    (selectorTable.filter (·.matches w)).length = 1 := by
  obtain ⟨r, hr, hw, -⟩ := exists_row_of_decode h
  have hpos := List.length_pos_of_mem
    (List.mem_filter (p := fun r : SelRow => r.matches w).mpr ⟨hr, hw⟩)
  have hle := length_filter_matches_le_one selectorTable_pairwise_apart w
  omega

theorem decode_encode (i : Instr) : decode (encode i) = .ok i := by
  cases i with
  | reset => exact decode_reset false 0b00#2 false 0b00#2 false
  | hold => exact decode_hold 0b00#2 false 0b00#2 false
  | srchShift b => exact decode_srchShift 0b00#2 b
  | srchSync b => exact decode_srchSync 0b00#2 b
  | lenShift b => exact decode_lenShift 0b00#2 b
  | lenOpen b => exact decode_lenOpen b
  | lenEmpty b => exact decode_lenEmpty b
  | lenOvf b => exact decode_lenOvf b
  | payStore b => exact decode_payStore 0b00#2 b
  | payEmit b => exact decode_payEmit b
  | payPass b => exact decode_payPass b
  | payDrop b => exact decode_payDrop b
  | illegal => exact decode_illegal false 0b00#2 false

end Sys2Proof.Machine

/-! ### The statements -/

namespace Sys2Proof.Proofs

open Sys2Proof.Machine

/-- Settles O1: each operation's word is a word of its row, and its operand is bit 0. -/
theorem decodeOfEncode : Obligations.DecodeOfEncode := decode_encode

/-- Settles O2: pairwise apart, the rows share no word (`length_filter_matches_of_decode`); the fields of
a word that is not reserved select a row (`exists_decode`). -/
theorem selectorPatternsDisjointAndCovering : Obligations.SelectorPatternsDisjointAndCovering := by
  intro w
  refine ⟨?_, decode_of_mem_reservedWords w, exists_decode⟩
  by_cases hw : w ∈ reservedWords
  · exact (filter_matches_of_mem_reservedWords w hw).trans (if_pos hw).symm
  · obtain ⟨i, hi⟩ := exists_decode hw
    exact (length_filter_matches_of_decode hi).trans (if_neg hw).symm

/-- Settles O3: each word of 95_test_vectors.md 2.7, read as its six fields. -/
theorem specSelectorWordsDecode : Obligations.SpecSelectorWordsDecode :=
  ⟨decode_srchShift 0b00#2 true, decode_srchSync 0b00#2 true, decode_lenShift 0b00#2 false,
    decode_lenOpen true, decode_lenEmpty false, decode_lenOvf false, decode_payStore 0b00#2 true,
    decode_payEmit true, decode_payPass false, decode_payDrop false,
    decode_hold 0b10#2 false 0b00#2 true, decode_reset true 0b10#2 false 0b00#2 true,
    decode_illegal false 0b00#2 false⟩

/-- Settles O4: each field is read back from its place in the word. -/
theorem selectorWordLayout : Obligations.SelectorWordLayout := fun rst vld st p c b =>
  ⟨selWord_rst rst vld st p c b, selWord_vld rst vld st p c b, selWord_st rst vld st p c b,
    selWord_p rst vld st p c b, selWord_c rst vld st p c b, selWord_b rst vld st p c b⟩

end Sys2Proof.Proofs
end

section
/-! SUPPORT. The predicates of R79, state by state, the operations without a bit of their own, and the
bits of the bytes of a stimulus line (R86); and the proofs of the statements about them. -/

namespace Sys2Proof.Machine

/-! ### The predicate p (R79) -/

section Predicates

variable {s : State} {inp : StepInput}

/-- Without a bit `p` is 0. -/
theorem State.predP_of_no_bit (h : inp.rst = true ∨ inp.vld = false) : s.predP inp = false := by
  rcases h with h | h <;> simp [State.predP, h]

theorem State.predP_searching (hst : s.st = stSearching) (b : Bit) :
    s.predP (.ofBit b) = true ↔ s.window b = s.cfg.syncPattern := by
  rw [State.predP, if_neg (by simp [StepInput.ofBit]), if_pos hst]
  exact decide_eq_true_iff

theorem State.predP_readingLength (hst : s.st = stReadingLength) (b : Bit) :
    s.predP (.ofBit b) = true ↔ s.idx = 7#12 := by
  simp [State.predP, StepInput.ofBit, hst]

theorem State.predP_readingPayload (hst : s.st = stReadingPayload) (b : Bit) :
    s.predP (.ofBit b) = true ↔ s.idx.toNat + 1 = nbits s.cfg s.len := by
  simp [State.predP, StepInput.ofBit, hst]

theorem State.predP_illegal (hst : s.st = stIllegal) : s.predP inp = false := by
  simp [State.predP, hst]

/-! ### The predicate c (R79) -/

theorem State.predC_of_predP_eq_false (hp : s.predP inp = false) : s.predC inp = .ok 0b00#2 := by
  simp [State.predC, hp]

theorem State.predC_searching (hst : s.st = stSearching) : s.predC inp = .ok 0b00#2 := by
  simp [State.predC, hst]

theorem State.predC_readingLength (hst : s.st = stReadingLength) (hp : s.predP inp = true) :
    s.predC inp = .ok (lenClass s.cfg (s.lenField inp.b)) := by
  simp [State.predC, hst, hp]

theorem State.predC_readingPayload (hst : s.st = stReadingPayload) (hp : s.predP inp = true) :
    s.predC inp = s.crcClass inp.b := by
  simp [State.predC, hst, hp]

/-- R83: no step has the class `0b11`. -/
theorem State.predC_ne_reserved {c : BitVec 2} (h : s.predC inp = .ok c) : c ≠ 0b11#2 := by
  rintro rfl
  cases hp : s.predP inp with
  | false => simp [State.predC_of_predP_eq_false hp] at h
  | true =>
    rcases st_cases s.st with hst | hst | hst | hst
    · simp [State.predC_searching hst] at h
    · rw [State.predC_readingLength hst hp] at h
      rcases lenClass_cases s.cfg (s.lenField inp.b) with hc | hc | hc <;> simp [hc] at h
    · rw [State.predC_readingPayload hst hp] at h
      rcases s.crcClass_cases inp.b with hc | hc | hc | ⟨f, hc⟩ <;> simp [hc] at h
    · simp [State.predP_illegal hst] at hp

/-- The selector word of a step is made of the input, `ST` and the two predicates. -/
theorem State.selector_eq_ok {w : BitVec 8} (h : s.selector inp = .ok w) : ∃ c,
    s.predC inp = .ok c ∧ w = selWord inp.rst inp.vld s.st (s.predP inp) c inp.b := by
  unfold State.selector at h
  split at h
  next => cases h
  next c hc => exact ⟨c, hc, (Except.ok.inj h).symm⟩

/-! ### The classes of a length and of a completion (R79) -/

theorem nbits_eq_zero_of_lenClass {c : Config} {l : Byte} (h : lenClass c l = 0b01#2) :
    nbits c l = 0 := by
  by_contra h0
  rw [lenClass, if_neg h0] at h
  split_ifs at h <;> cases h

/-- The last length bit is the lowest bit of the length field. -/
theorem State.lenField_lowBit (s : State) (b : Bit) : (s.lenField b).getLsbD 0 = b := by
  rw [State.lenField, s.lenShifted_eq b, BitVec.getLsbD_ofNat, Nat.testBit_zero]
  cases b <;> simp

/-- R79, R182: the verdict over a completed buffer of a payload and a trailer. -/
theorem CompletedBits.crcClass_trailer {b : Bit} {payload : List Bit} {r : Word}
    (h : CompletedBits s b (payload ++ bitsOf 16 r.toNat)) (hcrc : s.cfg.hasCrc = true)
    (hcheck : s.cfg.checkCrc = true) : s.crcClass b = .ok
      (if crc16 (s.len :: pack payload) s.cfg.crcPoly = r then 0b01#2 else 0b10#2) := by
  have hverify : verifyEn s.cfg = true := by rw [verifyEn, hcrc, hcheck]; rfl
  rw [h.crcClass_eq, if_pos hverify, h.recvOf_eq hcrc, h.calcOf_eq hcrc]
  simp only [Option.some.injEq, eq_comm]

theorem State.crcClass_unverified (h : verifyEn s.cfg = false) (b : Bit) :
    s.crcClass b = .ok 0b00#2 := by
  simp [State.crcClass, h]

theorem State.predC_unverified (hst : s.st = stReadingPayload)
    (h : s.cfg.hasCrc = false ∨ s.cfg.checkCrc = false) : s.predC inp = .ok 0b00#2 := by
  have hverify : verifyEn s.cfg = false := by rcases h with h | h <;> simp [verifyEn, h]
  cases hp : s.predP inp with
  | false => exact State.predC_of_predP_eq_false hp
  | true => rw [State.predC_readingPayload hst hp, State.crcClass_unverified hverify]

/-! ### The words of the steps (R83) -/

/-- R83: the selector word of a step has semantics. -/
theorem State.selector_not_mem_reservedWords {w : BitVec 8} (h : s.selector inp = .ok w) :
    w ∉ reservedWords := by
  obtain ⟨c, hc, rfl⟩ := State.selector_eq_ok h
  intro hw
  have hclass := class_of_mem_reservedWords _ hw
  rw [selWord_c] at hclass
  exact State.predC_ne_reserved hc hclass

/-- R123: no step has the word of LEN.EMPTY with the bit 1, since a length of 0 ends in a 0. -/
theorem State.selector_ne_lenEmpty_true {w : BitVec 8} (h : s.selector inp = .ok w) : w ≠ 0x5B#8 := by
  obtain ⟨c, hc, rfl⟩ := State.selector_eq_ok h
  intro hw
  have hst : s.st = stReadingLength := (selWord_st ..).symm.trans (congrArg (·.extractLsb' 4 2) hw)
  have hp : s.predP inp = true := (selWord_p ..).symm.trans (congrArg (·.getLsbD 3) hw)
  have hclass : c = 0b01#2 := (selWord_c ..).symm.trans (congrArg (·.extractLsb' 1 2) hw)
  have hb : inp.b = true := (selWord_b ..).symm.trans (congrArg (·.getLsbD 0) hw)
  rw [State.predC_readingLength hst hp, hclass, Except.ok.injEq] at hc
  obtain ⟨hl, -⟩ := (nbits_eq_zero_iff _ _).mp (nbits_eq_zero_of_lenClass hc)
  have hbit := s.lenField_lowBit inp.b
  rw [hl, hb] at hbit
  cases hbit

end Predicates

/-! ### The bits of a stimulus line (R86) -/

theorem bytesBits_append (bs bs' : List Byte) : bytesBits (bs ++ bs') = bytesBits bs ++ bytesBits bs' :=
  List.flatMap_append

/-- The bits of the trailer are those of its two bytes, high byte first. -/
theorem bytesBits_word (t : Word) :
    bytesBits [t.extractLsb' 8 8, t.extractLsb' 0 8] = bitsOf 16 t.toNat := by
  rw [bitsOf_sixteen]
  simp only [bytesBits, List.flatMap_cons, List.flatMap_nil, List.append_nil]

end Sys2Proof.Machine

/-! ### The statements -/

namespace Sys2Proof.Proofs

open Sys2Proof.Machine

/-- Settles O5: the fields are read back from the word (`selWord_st` and its like), where `p` and `c` are
those of R79, state by state; the reserved words and `0x5B` are excluded. -/
theorem selectorNeverProducesAReservedWord : Obligations.SelectorNeverProducesAReservedWord := by
  intro s inp w hw
  obtain ⟨i, hi⟩ := exists_decode (State.selector_not_mem_reservedWords hw)
  have hwf := wellFormed_of_decode hi (State.selector_ne_lenEmpty_true hw)
  obtain ⟨c, hc, rfl⟩ := State.selector_eq_ok hw
  simp only [selWord_rst, selWord_vld, selWord_st, selWord_p, selWord_c, selWord_b, true_and]
  refine ⟨⟨i, hi, hwf⟩, hc, State.predC_ne_reserved hc, fun hp => ?_,
    fun hst => ?_, State.predP_of_no_bit, fun hrst hvld => ?_⟩
  · exact Except.ok.inj (hc.symm.trans (State.predC_of_predP_eq_false hp))
  · exact Except.ok.inj (hc.symm.trans (State.predC_searching hst))
  obtain ⟨rst, vld, b⟩ := inp
  obtain rfl : rst = false := hrst
  obtain rfl : vld = true := hvld
  refine ⟨fun hst => ?_, fun hst => ⟨?_, ?_⟩, fun hst => ⟨?_, fun hno => ?_, ?_⟩⟩
  · exact State.predP_searching hst b
  · exact State.predP_readingLength hst b
  · rintro l rfl hp
    exact Except.ok.inj (hc.symm.trans (State.predC_readingLength hst hp))
  · exact State.predP_readingPayload hst b
  · exact Except.ok.inj (hc.symm.trans (State.predC_unverified hst hno))
  · rintro q payload r hcrc hcheck hp hq rfl
    exact Except.ok.inj (hc.symm.trans
      ((State.predC_readingPayload hst hp).trans (hq.crcClass_trailer hcrc hcheck)))

/-- Settles O21: ILLEGAL has no meaning in any state, its words are those of its row, and a bit with
`ST = 0b11` selects it. -/
theorem illegalIsRefused : Obligations.IllegalIsRefused := by
  refine ⟨fun _ => rfl, fun w hw => ?_, fun b s hc hst => ?_⟩
  · exact decode_of_matches (r := ⟨0xF0#8, 0x70#8, fun _ => .illegal⟩) (by simp [selectorTable]) hw
  · exact State.stepIn_of_selects (i := .illegal) hc ⟨rfl, rfl, hst⟩

/-- Settles O54: each field is read off the record of the event, kind by kind. -/
theorem eventPortFields : Obligations.EventPortFields := by
  refine ⟨fun e => ⟨?_, beq_iff_eq⟩, fun _ _ _ => ⟨rfl, rfl, rfl, rfl⟩,
    fun _ _ _ _ => ⟨rfl, rfl, rfl, rfl⟩, fun _ _ => ⟨rfl, rfl, rfl, rfl⟩, fun s => ?_⟩
  · cases e <;> simp [Event.kind]
  · exact Option.isSome_iff_ne_none

/-- Settles O56: both lines present their bits one by one, and the bits of the bytes are those of the
fields they stand for (`bytesBits_word` for the trailer). -/
theorem frameLineExpandsToBitsAndHex : Obligations.FrameLineExpandsToBitsAndHex := by
  intro c payload
  have htrailer : bytesBits (if c.hasCrc then [(frameCrc c payload).extractLsb' 8 8,
      (frameCrc c payload).extractLsb' 0 8] else [])
      = if c.hasCrc then bitsOf 16 (frameCrc c payload).toNat else [] := by
    split
    · exact bytesBits_word _
    · rfl
  simp only [Line.steps, Line.payloadBits, ← List.map_append, frame, frameX, List.cons_append,
    bytesBits_cons, bytesBits_append, htrailer, List.append_assoc]

end Sys2Proof.Proofs
end

section
/-! SUPPORT. The run over the eight length bits (R120, R206), and the proof of the statement about it. -/

namespace Sys2Proof.Machine

/-! ### The value of a bit sequence (R9) -/

theorem bitsVal_append_singleton (q : List Bit) (b : Bit) :
    bitsVal (q ++ [b]) = 2 * bitsVal q + b.toNat := by
  simp [bitsVal]

/-- The last of the `n + 1` bits of a number is its lowest. -/
theorem bitsOf_succ (n v : Nat) : bitsOf (n + 1) v = bitsOf n (v / 2) ++ [v.testBit 0] := by
  have hhead : ∀ k ∈ List.range n, v.testBit (n + 1 - 1 - k) = (v / 2).testBit (n - 1 - k) := by
    intro k hk
    rw [List.mem_range] at hk
    rw [Nat.testBit_div_two]
    congr 1
    omega
  rw [bitsOf, List.range_succ, List.map_append, List.map_congr_left hhead]
  simp [bitsOf]

/-- Reading back the `n` lowest bits of a number. -/
theorem bitsVal_bitsOf (n v : Nat) : bitsVal (bitsOf n v) = v % 2 ^ n := by
  induction n generalizing v with
  | zero => simp [bitsOf, bitsVal, Nat.mod_one]
  | succ n ih =>
    rw [bitsOf_succ, bitsVal_append_singleton, ih, Nat.toNat_testBit, pow_succ, mul_comm (2 ^ n),
      Nat.mod_mul, pow_zero, Nat.div_one, add_comm]

/-! ### Runs, one after the other (R206) -/

theorem State.runInputs_append {s t u : State} {ins ins' : List StepInput} {es es' : List Event}
    (h : s.runInputs ins = some (t, es)) (h' : t.runInputs ins' = some (u, es')) :
    s.runInputs (ins ++ ins') = some (u, es ++ es') := by
  induction ins generalizing s es with
  | nil =>
    obtain ⟨rfl, rfl⟩ := Prod.mk.inj (Option.some.inj h)
    exact h'
  | cons inp ins ih =>
    simp only [State.runInputs] at h
    split at h
    next s' hstep =>
      split at h
      next hrun =>
        cases h
        rw [List.append_assoc]
        exact State.runInputs_cons hstep (ih hrun)
      next => cases h
    next => cases h
    next => cases h

theorem State.runBits_append {s t u : State} {q q' : List Bit} {es es' : List Event}
    (h : s.runBits q = some (t, es)) (h' : t.runBits q' = some (u, es')) :
    s.runBits (q ++ q') = some (u, es ++ es') := by
  rw [State.runBits, List.map_append]
  exact State.runInputs_append h h'

/-- The run over one bit is its step. -/
theorem State.runBits_singleton {s t : State} {b : Bit} (h : s.stepIn (.ofBit b) = .next t) :
    s.runBits [b] = some (t, t.out.toList) := by
  simpa [State.runBits] using State.runInputs_cons h (ins := []) rfl

/-! ### The length bits (R120) -/

/-- R121: the run over length bits before the eighth shifts them into `SR` and counts them. -/
theorem State.runBits_length {s : State} (q : List Bit) (hc : s.cfg.legal = true)
    (hst : s.st = stReadingLength) (hq : s.idx.toNat + q.length ≤ 7)
    (hsr : s.sr < 2 ^ s.idx.toNat) :
    ∃ o, s.runBits q = some
      ({ s with sr := q.foldl (fun a b => 2 * a + b.toNat) s.sr,
                idx := s.idx + BitVec.ofNat 12 q.length, out := o }, []) := by
  induction q generalizing s with
  | nil => exact ⟨s.out, by simp [State.runBits, State.runInputs]⟩
  | cons b q ih =>
    rw [List.length_cons] at hq
    have hidx : (s.idx + 1#12).toNat = s.idx.toNat + 1 := toNat_add_one_of_lt (by omega)
    have hsr7 : s.sr < 2 ^ 7 := hsr.trans_le (Nat.pow_le_pow_right (by omega) (by omega))
    have hne : s.idx ≠ 7#12 := fun h => by
      have : s.idx.toNat = 7 := by rw [h]; rfl
      omega
    have hstep : s.stepIn (.ofBit b)
        = .next { s with sr := 2 * s.sr + b.toNat, idx := s.idx + 1#12, out := none } := by
      rw [State.stepIn_of_selects (i := .lenShift b) hc ⟨rfl, hst, hne⟩,
        (exec_next_iff (.lenShift b)).mpr rfl, State.lenShifted_mod hsr7, s.lenShifted_eq b]
    obtain ⟨o, hrun⟩ := ih (hc := hc) (hst := hst)
      (s := { s with sr := 2 * s.sr + b.toNat, idx := s.idx + 1#12, out := none })
      (by simp only [hidx]; omega)
      (by simp only [hidx]; exact s.lenShifted_eq b ▸ State.lenShifted_lt hsr b)
    refine ⟨o, (State.runInputs_cons hstep hrun).trans ?_⟩
    have hcount : s.idx + 1#12 + BitVec.ofNat 12 q.length = s.idx + BitVec.ofNat 12 (q.length + 1) := by
      rw [BitVec.add_assoc, ← BitVec.ofNat_add, Nat.add_comm 1]
    simp only [hcount, List.foldl_cons, List.length_cons, Option.toList_none, List.nil_append]

theorem lenClass_eq_overflow_iff (c : Config) (l : Byte) : lenClass c l = 0b10#2 ↔ c.maxLen < l := by
  unfold lenClass
  split_ifs with hgt h0 <;> simp [hgt]

/-- R120: the state after seven length bits of `l`, at the eighth. -/
theorem State.runBits_sevenLengthBits {s : State} (l : Byte) (hc : s.cfg.legal = true)
    (hst : s.st = stReadingLength) (hsr : s.sr = 0) (hidx : s.idx = 0#12) :
    ∃ o, s.runBits (bitsOf 7 (l.toNat / 2)) = some
      ({ s with sr := l.toNat / 2, idx := 7#12, out := o }, []) := by
  have hval : bitsVal (bitsOf 7 (l.toNat / 2)) = l.toNat / 2 := by
    rw [bitsVal_bitsOf]
    omega
  obtain ⟨o, hrun⟩ := State.runBits_length (bitsOf 7 (l.toNat / 2)) hc hst
    (by rw [hidx, length_bitsOf]; decide) (by simp [hsr, hidx])
  refine ⟨o, hrun.trans ?_⟩
  rw [hsr, hidx, length_bitsOf, ← bitsVal, hval]
  rfl

section EighthBit

variable {s : State} {l : Byte} (hsr : s.sr = l.toNat / 2)

include hsr

theorem State.lenShifted_eighthBit : s.lenShifted (l.toNat.testBit 0) = l.toNat := by
  rw [s.lenShifted_eq, hsr, Nat.toNat_testBit]
  omega

/-- R74, R120: with the eighth bit the length field is `l`. -/
theorem State.lenField_eighthBit : s.lenField (l.toNat.testBit 0) = l := by
  rw [State.lenField, State.lenShifted_eighthBit hsr, BitVec.ofNat_toNat, BitVec.setWidth_eq]

variable (hc : s.cfg.legal = true) (hst : s.st = stReadingLength) (hidx : s.idx = 7#12)

include hc hst hidx

theorem State.stepIn_eighthBit_overflow (h : lenClass s.cfg l = 0b10#2) :
    s.stepIn (.ofBit (l.toNat.testBit 0))
      = .next (State.emit { s with len := l } (.allocFail l)).freshSearch := by
  have hfield := State.lenField_eighthBit hsr
  rw [State.stepIn_of_selects (i := .lenOvf _) hc ⟨rfl, hst, hidx, by rw [hfield, h]⟩,
    (exec_next_iff (.lenOvf _)).mpr rfl, hfield]

theorem State.stepIn_eighthBit_empty (h : lenClass s.cfg l = 0b01#2) :
    s.stepIn (.ofBit (l.toNat.testBit 0))
      = .next (State.emit { s with len := 0#8 } (.packet 0#8 [])).freshSearch := by
  have hfield := State.lenField_eighthBit hsr
  rw [State.stepIn_of_selects (i := .lenEmpty _) hc ⟨rfl, hst, hidx, by rw [hfield, h]⟩,
    (exec_next_iff (.lenEmpty _)).mpr rfl]

theorem State.stepIn_eighthBit_open (h : lenClass s.cfg l = 0b00#2) :
    s.stepIn (.ofBit (l.toNat.testBit 0))
      = .next { s with len := l, sr := l.toNat, idx := 0#12, st := stReadingPayload, out := none } := by
  have hfield := State.lenField_eighthBit hsr
  have hsr7 : s.sr < 2 ^ 7 := by rw [hsr]; omega
  rw [State.stepIn_of_selects (i := .lenOpen _) hc ⟨rfl, hst, hidx, by rw [hfield, h]⟩,
    (exec_next_iff (.lenOpen _)).mpr rfl, hfield, State.lenShifted_mod hsr7,
    State.lenShifted_eighthBit hsr]

end EighthBit

end Sys2Proof.Machine

/-! ### The statement -/

namespace Sys2Proof.Proofs

open Sys2Proof.Machine

/-- Settles O40: seven bits are shifted in (`State.runBits_length`), and the eighth makes the length
field whose class selects the operation. -/
theorem eightBitsAreTheLength : Obligations.EightBitsAreTheLength := by
  intro s l hc hst hsr hidx
  obtain ⟨o, hseven⟩ := State.runBits_sevenLengthBits l hc hst hsr hidx
  have hrun {u : State} (h : State.stepIn { s with sr := l.toNat / 2, idx := 7#12, out := o }
      (.ofBit (l.toNat.testBit 0)) = .next u) :
      s.runBits (byteBits l) = some (u, u.out.toList) := by
    rw [byteBits_eq_bitsOf, bitsOf_succ]
    exact State.runBits_append hseven (State.runBits_singleton h)
  rcases lenClass_cases s.cfg l with h | h | h
  · obtain ⟨hle, hpos⟩ := (lenClass_eq_open_iff _ _).mp h
    have hnot : ¬ s.cfg.maxLen < l := by rw [BitVec.lt_def]; omega
    exact ⟨_, _, hrun (State.stepIn_eighthBit_open rfl hc hst rfl h), rfl, rfl, rfl,
      fun hgt => absurd hgt hnot, fun _ h0 => absurd h0 hpos.ne', fun _ _ => ⟨rfl, rfl, rfl, rfl⟩⟩
  · have h0 := nbits_eq_zero_of_lenClass h
    obtain ⟨rfl, -⟩ := (nbits_eq_zero_iff _ _).mp h0
    exact ⟨_, _, hrun (State.stepIn_eighthBit_empty rfl hc hst rfl h), rfl, rfl, rfl,
      fun hgt => absurd hgt (BitVec.not_lt_zero), fun _ _ => ⟨rfl, rfl, rfl, rfl⟩,
      fun _ hpos => absurd h0 hpos.ne'⟩
  · have hgt := (lenClass_eq_overflow_iff _ _).mp h
    have hnot : ¬ l ≤ s.cfg.maxLen := BitVec.not_le.mpr hgt
    exact ⟨_, _, hrun (State.stepIn_eighthBit_overflow rfl hc hst rfl h), rfl, rfl, rfl,
      fun _ => ⟨rfl, rfl, rfl, rfl⟩, fun hle => absurd hle hnot, fun hle => absurd hle hnot⟩

end Sys2Proof.Proofs
end

section
/-! SUPPORT. A placed selector word (log entry 7): the input it holds, and the registers and straps it is
placed with, operation by operation; and the proof that the next step performs it. -/

namespace Sys2Proof.Machine

/-! ### The input a word holds (R80) -/

/-- The inputs with which a step can perform the operation: what `Selects` asks of the input. -/
def takes (inp : StepInput) : Instr → Bool
  | .reset => inp.rst
  | .hold => !inp.rst && !inp.vld
  | .srchShift b | .srchSync b | .lenShift b | .lenOpen b | .lenEmpty b | .lenOvf b
  | .payStore b | .payEmit b | .payPass b | .payDrop b => inp == .ofBit b
  | .illegal => !inp.rst && inp.vld

/-- A bit that a row fixes is the pattern's, in every word of the row. -/
theorem getLsbD_of_matches {r : SelRow} {w : BitVec 8} (hw : r.matches w = true) {k : Nat}
    (hk : r.mask.getLsbD k = true) : w.getLsbD k = r.pattern.getLsbD k := by
  have hand : w &&& r.mask = r.pattern := by simpa [SelRow.matches] using hw
  rw [← hand, BitVec.getLsbD_and, hk, Bool.and_true]

/-- R80: each row fixes as much of `rst` and `vld` as its operation needs. -/
theorem takes_of_row : ∀ r ∈ selectorTable, ∀ rst vld b : Bit,
    (r.mask.getLsbD 7 = true → rst = r.pattern.getLsbD 7) →
    (r.mask.getLsbD 6 = true → vld = r.pattern.getLsbD 6) →
    takes ⟨rst, vld, b⟩ (r.op b) = true := by decide

/-- The input bits of a word are an input of the operation it names. -/
theorem takes_of_decode {w : BitVec 8} {i : Instr} (h : decode w = .ok i) :
    takes ⟨w.getLsbD 7, w.getLsbD 6, w.getLsbD 0⟩ i = true := by
  obtain ⟨r, hr, hw, rfl⟩ := exists_row_of_decode h
  exact takes_of_row r hr _ _ _ (getLsbD_of_matches hw) (getLsbD_of_matches hw)

theorem takes_of_decodeTableWord {n w : Nat} {i : Instr} (h : decodeTableWord n w = some i) :
    takes ⟨w.testBit 7, w.testBit 6, w.testBit 0⟩ i = true := by
  have hbit {k : Nat} (hk : k < 8) : (BitVec.ofNat 8 w).getLsbD k = w.testBit k := by
    rw [BitVec.getLsbD_ofNat, decide_eq_true hk, Bool.true_and]
  unfold decodeTableWord at h
  split at h
  next =>
    split at h
    next hdec =>
      cases h
      rw [← hbit (k := 7) (by omega), ← hbit (k := 6) (by omega), ← hbit (k := 0) (by omega)]
      exact takes_of_decode hdec
    next => cases h
  next => cases h

/-! ### The straps of a placed word (R253) -/

theorem legalStraps_legal (c : Config) : (legalStraps c).legal = true := by
  unfold legalStraps
  split
  next h => exact h
  next => exact (legal_iff _).mpr ⟨Nat.le_max_right _ _, Nat.mod_lt _ (by positivity)⟩

/-- Setting the lowest bit of the sync word keeps it in range. -/
theorem syncPattern_withLowBit_lt {c : Config} (hc : c.legal = true) (b : Bit) :
    c.syncPattern / 2 * 2 + b.toNat < 2 ^ c.w := by
  obtain ⟨hw, hs⟩ := (legal_iff c).mp hc
  obtain ⟨n, hn⟩ : ∃ n, c.w = n + 1 := ⟨c.w - 1, by omega⟩
  have hb := b.toNat_le
  rw [hn, pow_succ] at hs ⊢
  omega

theorem State.readyFor_legal (i : Instr) (s : State) : (s.readyFor i).cfg.legal = true := by
  have hc := legalStraps_legal s.cfg
  obtain ⟨hw, hs⟩ := (legal_iff _).mp hc
  cases i with
  | srchShift b =>
    simp only [State.readyFor]
    split
    · have hone : 1 < 2 ^ (legalStraps s.cfg).w := Nat.one_lt_two_pow (by omega)
      exact (legal_iff _).mpr ⟨hw, (Nat.sub_le 1 b.toNat).trans_lt hone⟩
    · exact hc
  | srchSync b => exact (legal_iff _).mpr ⟨hw, syncPattern_withLowBit_lt hc b⟩
  | _ => exact hc

/-! ### The trailer of a placed completion -/

/-- The polynomial of a placed PAY.PASS makes the last bit of the CRC the bit of the word. -/
theorem crc16_polyFor (p : Word) (b : Bit) : (crc16 [0#8] (polyFor p b)).getLsbD 0 = b := by
  unfold polyFor
  split
  next h => exact h
  next => cases b <;> decide

/-- The first fifteen bits of `t`, then `b`: the bits of the trailer that is `t` but for its lowest bit. -/
theorem trailerHead_append {t r : Word} {b : Bit} (hlow : r.getLsbD 0 = b)
    (hhigh : ∀ k, 1 ≤ k → k < 16 → r.getLsbD k = t.getLsbD k) :
    trailerHead t ++ [b] = bitsOf 16 r.toNat := by
  have hhead : ∀ k ∈ List.range 15, t.getLsbD (15 - k) = r.toNat.testBit (16 - 1 - k) := by
    intro k hk
    rw [List.mem_range] at hk
    exact (hhigh (15 - k) (by omega) (by omega)).symm
  rw [bitsOf, List.range_succ, List.map_append, trailerHead, List.map_congr_left hhead, ← hlow]
  rfl

/-- With the highest bit of a CRC flipped, no last bit gives the CRC. -/
theorem exists_trailer_ne (t : Word) (b : Bit) :
    ∃ r, trailerHead (t ^^^ 0x8000#16) ++ [b] = bitsOf 16 r.toNat ∧ t ≠ r := by
  have hhigh : ∀ k, 1 ≤ k → k < 16 →
      (BitVec.concat ((t ^^^ 0x8000#16).extractLsb' 1 15) b).getLsbD k
        = (t ^^^ 0x8000#16).getLsbD k := by
    intro k hk hk'
    rw [BitVec.getLsbD_concat, if_neg (by omega), BitVec.getLsbD_extractLsb',
      decide_eq_true (by omega), Bool.true_and, Nat.add_sub_cancel' hk]
  refine ⟨_, trailerHead_append (by simp) hhigh, fun h => ?_⟩
  have htop := hhigh 15 (by omega) (by omega)
  rw [← h, BitVec.getLsbD_xor] at htop
  simp at htop

/-- Bits in the cells below `IDX` and the last bit complete the buffer. -/
theorem CompletedBits.of_writeBits {s : State} {m : Memory} {q : List Bit} (b : Bit)
    (hbuf : s.buf = Memory.writeBits m 0 q) (hq : q.length = s.idx.toNat)
    (hn : s.idx.toNat + 1 = nbits s.cfg s.len) (hcap : nbits s.cfg s.len ≤ bufCap s.cfg) :
    CompletedBits s b (q ++ [b]) where
  idxInCap := by omega
  bufInCap := hcap
  length := by rw [List.length_append, hq, List.length_singleton, hn]
  bits i hi := by
    split
    · subst_vars; simp [← hq]
    · rw [hbuf, Memory.read_writeBits, if_pos (by omega), List.getElem?_append_left (by omega),
        Nat.sub_zero]

/-- R79: the verdict at the last bit of a trailer `r` behind an empty payload. -/
theorem State.crcClass_emptyPayload {s : State} {b : Bit} {m : Memory} {t r : Word}
    (hidx : s.idx = 15#12) (hlen : s.len = 0#8) (hbuf : s.buf = Memory.writeBits m 0 (trailerHead t))
    (hcrc : s.cfg.hasCrc = true) (hcheck : s.cfg.checkCrc = true)
    (hr : trailerHead t ++ [b] = bitsOf 16 r.toNat) :
    s.idx.toNat + 1 = nbits s.cfg s.len ∧ s.crcClass b = .ok
      (if crc16 [0#8] s.cfg.crcPoly = r then 0b01#2 else 0b10#2) := by
  have hn : s.idx.toNat + 1 = nbits s.cfg s.len := by rw [hidx, hlen, nbits, if_pos hcrc]; rfl
  have hcap : nbits s.cfg s.len ≤ bufCap s.cfg := nbits_le_bufCap _ _ (by rw [hlen]; exact Nat.zero_le _)
  have hq : (trailerHead t).length = s.idx.toNat := by rw [hidx]; simp [trailerHead]
  have hdone : CompletedBits s b ([] ++ bitsOf 16 r.toNat) :=
    hr ▸ CompletedBits.of_writeBits b hbuf hq hn hcap
  exact ⟨hn, hlen ▸ hdone.crcClass_trailer hcrc hcheck⟩

/-! ### The registers of a placed word (R79) -/

/-- The length field of a placed eighth length bit. -/
theorem State.lenField_toNat_eq {s : State} {b : Bit} {n : Nat} (hsr : s.sr < 2 ^ 7)
    (hn : 2 * s.sr + b.toNat = n) : (s.lenField b).toNat = n := by
  rw [State.lenField_toNat hsr, s.lenShifted_eq, hn]

section Ready

variable (s : State) (b : Bit)

theorem State.readyFor_selects_srchShift :
    Selects (s.readyFor (.srchShift b)) (.ofBit b) (.srchShift b) := by
  have hwindow : (s.readyFor (.srchShift b)).window b = b.toNat := by
    simp [State.window, State.readyFor]
  refine ⟨rfl, rfl, ?_⟩
  rw [hwindow]
  simp only [State.readyFor]
  split
  · show b.toNat ≠ 1 - b.toNat
    omega
  next hne => exact Ne.symm hne

theorem State.readyFor_selects_srchSync :
    Selects (s.readyFor (.srchSync b)) (.ofBit b) (.srchSync b) := by
  obtain ⟨hw, hs⟩ := (legal_iff _).mp (legalStraps_legal s.cfg)
  refine ⟨rfl, rfl, (State.window_eq _ b hw).trans ?_⟩
  show 2 * ((legalStraps s.cfg).syncPattern / 2) % 2 ^ (legalStraps s.cfg).w + b.toNat
    = (legalStraps s.cfg).syncPattern / 2 * 2 + b.toNat
  rw [Nat.mod_eq_of_lt (by omega), mul_comm]

theorem State.readyFor_selects_lenOpen :
    Selects (s.readyFor (.lenOpen b)) (.ofBit b) (.lenOpen b) := by
  have hb := b.toNat_le
  have hsr : (s.readyFor (.lenOpen b)).sr = 1 - b.toNat := by cases b <;> rfl
  have hfield : ((s.readyFor (.lenOpen b)).lenField b).toNat = 2 - b.toNat :=
    State.lenField_toNat_eq (by omega) (by omega)
  have hmax : 2 ≤ (s.readyFor (.lenOpen b)).cfg.maxLen.toNat := by
    simp only [State.readyFor]
    split
    next => simp
    next h => exact BitVec.le_def.mp (BitVec.not_lt.mp h)
  exact ⟨rfl, rfl, rfl, (lenClass_eq_open_iff _ _).mpr ⟨by omega, by unfold nbits; omega⟩⟩

theorem State.readyFor_selects_lenEmpty :
    Selects (s.readyFor (.lenEmpty false)) (.ofBit false) (.lenEmpty false) := by
  have hsr : (s.readyFor (.lenEmpty false)).sr = 0 := rfl
  have hfield : ((s.readyFor (.lenEmpty false)).lenField false).toNat = 0 :=
    State.lenField_toNat_eq (by omega) (by rw [hsr]; rfl)
  have hsize := (nbits_eq_zero_iff (s.readyFor (.lenEmpty false)).cfg _).mpr
    ⟨BitVec.eq_of_toNat_eq hfield, rfl⟩
  exact ⟨rfl, rfl, rfl, lenClass_of_nbits_eq_zero (by omega) hsize⟩

theorem State.readyFor_selects_lenOvf :
    Selects (s.readyFor (.lenOvf b)) (.ofBit b) (.lenOvf b) := by
  have hsr : (s.readyFor (.lenOvf b)).sr = 127 := rfl
  have hfield : ((s.readyFor (.lenOvf b)).lenField b).toNat = 254 + b.toNat :=
    State.lenField_toNat_eq (by omega) (by omega)
  have hmax : (s.readyFor (.lenOvf b)).cfg.maxLen.toNat ≤ 253 := by
    simp only [State.readyFor]
    split
    next h => exact Nat.le_of_lt_succ (BitVec.lt_def.mp h)
    next => simp
  exact ⟨rfl, rfl, rfl, (lenClass_eq_overflow_iff _ _).mpr (BitVec.lt_def.mpr (by omega))⟩

theorem State.readyFor_selects_payStore :
    Selects (s.readyFor (.payStore b)) (.ofBit b) (.payStore b) := by
  refine ⟨rfl, rfl, ?_⟩
  show 0 + 1 ≠ 8 * 1 + _
  omega

theorem State.readyFor_selects_payEmit :
    Selects (s.readyFor (.payEmit b)) (.ofBit b) (.payEmit b) :=
  ⟨rfl, rfl, rfl, State.crcClass_unverified rfl b⟩

theorem State.readyFor_selects_payPass :
    Selects (s.readyFor (.payPass b)) (.ofBit b) (.payPass b) := by
  have hlow := crc16_polyFor (legalStraps s.cfg).crcPoly b
  have hpoly : (s.readyFor (.payPass b)).cfg.crcPoly = polyFor (legalStraps s.cfg).crcPoly b := rfl
  have hbuf : (s.readyFor (.payPass b)).buf = Memory.writeBits s.buf 0
      (trailerHead (crc16 [0#8] (polyFor (legalStraps s.cfg).crcPoly b))) := by
    simp only [State.readyFor]
  obtain ⟨hn, hclass⟩ := State.crcClass_emptyPayload (s := s.readyFor (.payPass b)) rfl rfl hbuf rfl rfl
    (trailerHead_append hlow fun _ _ _ => rfl)
  rw [hpoly, if_pos rfl] at hclass
  exact ⟨rfl, rfl, hn, hclass⟩

theorem State.readyFor_selects_payDrop :
    Selects (s.readyFor (.payDrop b)) (.ofBit b) (.payDrop b) := by
  obtain ⟨r, hr, hne⟩ := exists_trailer_ne (crc16 [0#8] (legalStraps s.cfg).crcPoly) b
  have hpoly : (s.readyFor (.payDrop b)).cfg.crcPoly = (legalStraps s.cfg).crcPoly := rfl
  have hbuf : (s.readyFor (.payDrop b)).buf = Memory.writeBits s.buf 0
      (trailerHead (crc16 [0#8] (legalStraps s.cfg).crcPoly ^^^ 0x8000#16)) := by
    simp only [State.readyFor]
  obtain ⟨hn, hclass⟩ :=
    State.crcClass_emptyPayload (s := s.readyFor (.payDrop b)) rfl rfl hbuf rfl rfl hr
  rw [hpoly, if_neg hne] at hclass
  exact ⟨rfl, rfl, hn, hclass⟩

end Ready

/-- Log entry 7: the placed registers and straps select the operation of the word. -/
theorem State.readyFor_selects {i : Instr} {inp : StepInput} (hwf : i.wellFormed = true)
    (h : takes inp i = true) (s : State) : Selects (s.readyFor i) inp i := by
  cases i with
  | reset => exact h
  | hold => simpa [takes, Selects] using h
  | illegal =>
    obtain ⟨hrst, hvld⟩ : inp.rst = false ∧ inp.vld = true := by simpa [takes] using h
    exact ⟨hrst, hvld, rfl⟩
  | srchShift b => cases beq_iff_eq.mp h; exact s.readyFor_selects_srchShift b
  | srchSync b => cases beq_iff_eq.mp h; exact s.readyFor_selects_srchSync b
  | lenShift b => exact ⟨beq_iff_eq.mp h, rfl, fun h0 : 0#12 = 7#12 => absurd h0 (by decide)⟩
  | lenOpen b => cases beq_iff_eq.mp h; exact s.readyFor_selects_lenOpen b
  | lenEmpty b =>
    cases b with
    | true => cases hwf
    | false => cases beq_iff_eq.mp h; exact s.readyFor_selects_lenEmpty
  | lenOvf b => cases beq_iff_eq.mp h; exact s.readyFor_selects_lenOvf b
  | payStore b => cases beq_iff_eq.mp h; exact s.readyFor_selects_payStore b
  | payEmit b => cases beq_iff_eq.mp h; exact s.readyFor_selects_payEmit b
  | payPass b => cases beq_iff_eq.mp h; exact s.readyFor_selects_payPass b
  | payDrop b => cases beq_iff_eq.mp h; exact s.readyFor_selects_payDrop b

theorem State.readyFor_pending (i : Instr) (s : State) : (s.readyFor i).pending = s.pending := by
  cases i <;> rfl

theorem State.withFetchWord_eq {n w : Nat} {i : Instr} (h : decodeTableWord n w = some i)
    (s : State) : s.withFetchWord n w
      = { s.readyFor i with pending := ⟨w.testBit 7, w.testBit 6, w.testBit 0⟩ :: s.pending } := by
  simp only [State.withFetchWord, State.placeWord, h]

end Sys2Proof.Machine

/-! ### The statement -/

namespace Sys2Proof.Proofs

open Sys2Proof.Machine

/-- Settles O7: the step takes the input the word holds (`takes_of_decodeTableWord`), and the registers
and straps it was placed with select its operation (`State.readyFor_selects`). -/
theorem placedWordIsTheNextStep : Obligations.PlacedWordIsTheNextStep := by
  intro s w i h hwf
  have hplaced : { s.withFetchWord 8 w with pending := s.pending } = s.readyFor i := by
    rw [State.withFetchWord_eq h, ← State.readyFor_pending i s]
  have hinput : (s.withFetchWord 8 w).nextInput = ⟨w.testBit 7, w.testBit 6, w.testBit 0⟩ := by
    rw [State.withFetchWord_eq h]; rfl
  have htaken : (s.withFetchWord 8 w).takeInput = s.readyFor i := by
    rw [State.withFetchWord_eq h, ← State.readyFor_pending i s]; rfl
  rw [step_eq_stepIn, hinput, htaken, hplaced]
  exact State.stepIn_of_selects (State.readyFor_legal i s)
    (State.readyFor_selects hwf (takes_of_decodeTableWord h) s)

end Sys2Proof.Proofs
end

section
/-! SUPPORT. The bit synchronizer: the two operations of a search (R100 to R103), the window in closed form
(R105), the run of a search up to its first match (R104, R106), and the proofs of the statements about
them. -/

namespace Sys2Proof.Machine

/-! ### The operations of a search (R102, R103) -/

/-- R101: the window fits the register `SR`, so writing it truncates nothing. -/
theorem State.window_mod (s : State) (b : Bit) : s.window b % 2 ^ srWidth s.cfg = s.window b := by
  have hmask : (s.sr <<< 1) &&& maskW s.cfg < 2 ^ srWidth s.cfg :=
    (Nat.and_lt_two_pow _ (Nat.sub_lt (by positivity) (by omega))).trans_le
      (Nat.pow_le_pow_right (by omega) (Nat.le_max_left s.cfg.w 8))
  have hbit : b.toNat < 2 ^ srWidth s.cfg :=
    b.toNat_lt.trans_le (Nat.le_self_pow (by unfold srWidth; omega) 2)
  exact Nat.mod_eq_of_lt (Nat.or_lt_two_pow hmask hbit)

/-- R102: the whole next state of SRCH.SHIFT. -/
theorem exec_srchShift (b : Bit) (s : State) :
    exec (.srchShift b) s = .next { s with sr := s.window b, out := none } := by
  rw [(exec_next_iff (.srchShift b)).mpr rfl, s.window_mod]

/-- R103: the whole next state of SRCH.SYNC. -/
theorem exec_srchSync (b : Bit) (s : State) : exec (.srchSync b) s = .next
    { s with sr := 0, idx := 0#12, st := stReadingLength, out := none } := rfl

section Search

variable {s : State} {b : Bit} (hc : s.cfg.legal = true) (hst : s.st = stSearching)

include hc hst

/-- R102: a bit whose window is not the sync word shifts the window. -/
theorem State.stepIn_noMatch (h : s.window b ≠ s.cfg.syncPattern) :
    s.stepIn (.ofBit b) = .next { s with sr := s.window b, out := none } := by
  rw [State.stepIn_of_selects (i := .srchShift b) hc ⟨rfl, hst, h⟩, exec_srchShift]

/-- R103: a bit whose window is the sync word starts the length field. -/
theorem State.stepIn_match (h : s.window b = s.cfg.syncPattern) : s.stepIn (.ofBit b) = .next
    { s with sr := 0, idx := 0#12, st := stReadingLength, out := none } := by
  rw [State.stepIn_of_selects (i := .srchSync b) hc ⟨rfl, hst, h⟩, exec_srchSync]

end Search

/-! ### The window in closed form (R105) -/

theorem bitsVal_append (p q : List Bit) : bitsVal (p ++ q) = 2 ^ q.length * bitsVal p + bitsVal q := by
  induction q using List.reverseRecOn with
  | nil => simp [bitsVal]
  | append_singleton q b ih =>
    rw [← List.append_assoc, bitsVal_append_singleton, bitsVal_append_singleton, ih,
      List.length_append, List.length_singleton, pow_succ]
    ring

theorem bitsVal_lt (q : List Bit) : bitsVal q < 2 ^ q.length := by
  induction q using List.reverseRecOn with
  | nil => simp [bitsVal]
  | append_singleton q b ih =>
    have hb := b.toNat_lt
    rw [bitsVal_append_singleton, List.length_append, List.length_singleton, pow_succ]
    omega

theorem bitsVal_replicate_false (n : Nat) : bitsVal (List.replicate n false) = 0 := by
  induction n with
  | zero => rfl
  | succ n ih => rw [List.replicate_succ', bitsVal_append_singleton, ih]; rfl

/-- The value of the bits that are left after the first `k`. -/
theorem bitsVal_drop (k : Nat) (q : List Bit) :
    bitsVal (q.drop k) = bitsVal q % 2 ^ (q.length - k) := by
  conv_rhs => rw [← List.take_append_drop k q, bitsVal_append, ← List.length_drop]
  rw [List.take_append_drop, Nat.mul_add_mod, Nat.mod_eq_of_lt (bitsVal_lt _)]

/-- R105: the window is the value of the bits so far, modulo `2^W`. -/
theorem winVal_eq (w : Nat) (q : List Bit) : winVal w q = bitsVal q % 2 ^ w := by
  rw [winVal, bitsVal_drop, bitsVal_append, bitsVal_replicate_false, List.length_append,
    List.length_replicate, Nat.add_sub_cancel, Nat.mul_zero, Nat.zero_add]

theorem winVal_nil (w : Nat) : winVal w [] = 0 := by
  rw [winVal_eq, bitsVal, List.foldl_nil, Nat.zero_mod]

/-- After `n` bits the window is below `2^n`: before them come zeros only (R104). -/
theorem winVal_lt (w : Nat) (q : List Bit) : winVal w q < 2 ^ q.length := by
  rw [winVal_eq]
  exact (Nat.mod_le _ _).trans_lt (bitsVal_lt q)

/-- R100, R105: a further bit doubles the window, drops its top bit and takes the lowest place. -/
theorem winVal_append_singleton {w : Nat} (hw : 1 ≤ w) (q : List Bit) (b : Bit) :
    winVal w (q ++ [b]) = 2 * winVal w q % 2 ^ w + b.toNat := by
  obtain ⟨n, rfl⟩ : ∃ n, w = n + 1 := ⟨w - 1, by omega⟩
  have hb := b.toNat_lt
  have hlow : (2 * bitsVal q + b.toNat) % 2 = b.toNat := by omega
  have hhigh : (2 * bitsVal q + b.toNat) / 2 = bitsVal q := by omega
  have hpow : 2 ^ (n + 1) = 2 * 2 ^ n := Nat.pow_succ'
  calc winVal (n + 1) (q ++ [b]) = (2 * bitsVal q + b.toNat) % (2 * 2 ^ n) := by
        rw [winVal_eq, bitsVal_append_singleton, hpow]
    _ = b.toNat + 2 * (bitsVal q % 2 ^ n) := by rw [Nat.mod_mul, hlow, hhigh]
    _ = 2 * winVal (n + 1) q % 2 ^ (n + 1) + b.toNat := by
        rw [winVal_eq, Nat.mul_mod_mod, hpow, Nat.mul_mod_mul_left, add_comm]

/-- R100, R105: with the window of `q` in `SR`, the window after a bit is that of `q` and the bit. -/
theorem State.window_of_winVal {s : State} (hc : s.cfg.legal = true) (q : List Bit) (b : Bit)
    (o : Option Event) : State.window { s with sr := winVal s.cfg.w q, out := o } b
      = winVal s.cfg.w (q ++ [b]) := by
  obtain ⟨hw, -⟩ := (legal_iff s.cfg).mp hc
  rw [winVal_append_singleton hw]
  exact State.window_eq _ b hw

/-! ### Streams without a match, and the first match (R105) -/

/-- No window of the bits `q`, from the first bit on, is the sync word. -/
def NoMatch (c : Config) (q : List Bit) : Prop :=
  ∀ k, 1 ≤ k → k ≤ q.length → winVal c.w (q.take k) ≠ c.syncPattern

theorem noMatch_nil (c : Config) : NoMatch c [] := by
  intro k h1 h0
  rw [List.length_nil] at h0
  omega

theorem noMatch_append_singleton {c : Config} {q : List Bit} {b : Bit} :
    NoMatch c (q ++ [b]) ↔ NoMatch c q ∧ winVal c.w (q ++ [b]) ≠ c.syncPattern := by
  have hlen : (q ++ [b]).length = q.length + 1 := List.length_append
  constructor
  · refine fun h => ⟨fun k h1 hk => ?_, ?_⟩
    · rw [← List.take_append_of_le_length (l₂ := [b]) hk]
      exact h k h1 (by omega)
    · have hall := h (q.length + 1) (by omega) (by omega)
      rwa [← hlen, List.take_length] at hall
  · rintro ⟨h, hlast⟩ k h1 hk
    rcases Nat.lt_or_ge q.length k with hgt | hle
    · rwa [List.take_of_length_le (by omega)]
    · rw [List.take_append_of_le_length hle]
      exact h k h1 hle

/-- A stream matches nowhere, or it has a first match. -/
theorem noMatch_or_first_match (c : Config) (q : List Bit) : NoMatch c q ∨
    ∃ p b r, q = p ++ [b] ++ r ∧ NoMatch c p ∧ winVal c.w (p ++ [b]) = c.syncPattern := by
  induction q using List.reverseRecOn with
  | nil => exact .inl (noMatch_nil c)
  | append_singleton q b ih =>
    rcases ih with hno | ⟨p, b', r, rfl, hno, hmatch⟩
    · by_cases hmatch : winVal c.w (q ++ [b]) = c.syncPattern
      · exact .inr ⟨q, b, [], (List.append_nil _).symm, hno, hmatch⟩
      · exact .inl (noMatch_append_singleton.mpr ⟨hno, hmatch⟩)
    · exact .inr ⟨p, b', r ++ [b], List.append_assoc _ _ _, hno, hmatch⟩

/-! ### The run of a search (R104, R105, R106) -/

section Run

variable {s : State} (hc : s.cfg.legal = true) (hs : FreshSearch s)

include hc hs

/-- R106: the run of a search without a match moves the window and nothing else. -/
theorem FreshSearch.runBits_noMatch {q : List Bit} (hq : NoMatch s.cfg q) :
    ∃ o, s.runBits q = some ({ s with sr := winVal s.cfg.w q, out := o }, []) := by
  obtain ⟨hst, hsr, -⟩ := hs
  induction q using List.reverseRecOn with
  | nil => exact ⟨s.out, by rw [winVal_nil, ← hsr]; rfl⟩
  | append_singleton q b ih =>
    obtain ⟨hno, hlast⟩ := noMatch_append_singleton.mp hq
    obtain ⟨o, hrun⟩ := ih hno
    have hwin := State.window_of_winVal hc q b o
    have hstep := State.stepIn_noMatch (s := { s with sr := winVal s.cfg.w q, out := o }) hc hst
      (hwin.trans_ne hlast)
    rw [hwin] at hstep
    exact ⟨none, State.runBits_append hrun (State.runBits_singleton hstep)⟩

/-- R105: the run of a search up to its first match ends at the start of the length field. -/
theorem FreshSearch.runBits_firstMatch {q : List Bit} {b : Bit} (hq : NoMatch s.cfg q)
    (hmatch : winVal s.cfg.w (q ++ [b]) = s.cfg.syncPattern) : s.runBits (q ++ [b]) = some
      ({ s with sr := 0, idx := 0#12, st := stReadingLength, out := none }, []) := by
  obtain ⟨o, hrun⟩ := hs.runBits_noMatch hc hq
  obtain ⟨hst, -, -⟩ := hs
  have hstep := State.stepIn_match (s := { s with sr := winVal s.cfg.w q, out := o }) hc hst
    ((State.window_of_winVal hc q b o).trans hmatch)
  exact State.runBits_append hrun (State.runBits_singleton hstep)

/-- R190: a run that outputs anything has a first match, and at least eight bits after it. -/
theorem FreshSearch.exists_match_of_event {u : State} {q : List Bit} {es : List Event}
    (hrun : s.runBits q = some (u, es)) (hes : es ≠ []) :
    ∃ p b r, q = p ++ [b] ++ r ∧ winVal s.cfg.w (p ++ [b]) = s.cfg.syncPattern ∧ 8 ≤ r.length := by
  have quiet {v : State} (h : s.runBits q = some (v, [])) : False := by
    rw [h, Option.some.injEq, Prod.mk.injEq] at hrun
    exact hes hrun.2.symm
  rcases noMatch_or_first_match s.cfg q with hno | ⟨p, b, r, rfl, hno, hmatch⟩
  · obtain ⟨o, h⟩ := hs.runBits_noMatch hc hno
    exact (quiet h).elim
  · refine ⟨p, b, r, rfl, hmatch, ?_⟩
    by_contra hshort
    obtain ⟨o, h⟩ := State.runBits_length r
      (s := { s with sr := 0, idx := 0#12, st := stReadingLength, out := none }) hc rfl
      (by simp only [BitVec.toNat_ofNat]; omega) (by simp)
    exact quiet (State.runBits_append (hs.runBits_firstMatch hc hno hmatch) h)

end Run

end Sys2Proof.Machine

/-! ### The statements -/

namespace Sys2Proof.Proofs

open Sys2Proof.Machine

/-- Settles O11: the window fits `SR` (`State.window_mod`), and a window that is not the sync word selects
SRCH.SHIFT. -/
theorem srchShiftMovesTheWindow : Obligations.SrchShiftMovesTheWindow := by
  refine ⟨exec_srchShift, fun w hw => ?_, fun b s hc hst hne => ?_, fun b s hc => ?_⟩
  · exact decode_of_matches (r := ⟨0xF8#8, 0x40#8, .srchShift⟩) (by simp [selectorTable]) hw
  · exact State.stepIn_noMatch hc hst hne
  · obtain ⟨hw, -⟩ := (legal_iff s.cfg).mp hc
    exact s.window_lt b hw

/-- Settles O12: the result is read off the operation, and a window that is the sync word selects it. -/
theorem srchSyncEntersReadingLength : Obligations.SrchSyncEntersReadingLength := by
  refine ⟨exec_srchSync, fun w hw => ?_, fun b s hc hst heq => ?_⟩
  · exact decode_of_matches (r := ⟨0xF8#8, 0x48#8, .srchSync⟩) (by simp [selectorTable]) hw
  · exact State.stepIn_match hc hst heq

/-- Settles O38, by induction on the bits from the last one: each shift extends the window by its bit
(`State.window_of_winVal`). -/
theorem searchGoesOnWithoutAMatch : Obligations.SearchGoesOnWithoutAMatch := by
  intro s q hc hs hno
  obtain ⟨o, hrun⟩ := hs.runBits_noMatch hc hno
  exact ⟨_, hrun, rfl⟩

/-- Settles O39: the bits before the last match nowhere, so the last is the first match. -/
theorem syncIsDeclaredAtTheFirstMatch : Obligations.SyncIsDeclaredAtTheFirstMatch := by
  intro s q hc hs hne hbefore hmatch
  obtain ⟨p, b, rfl⟩ := (List.eq_nil_or_concat' q).resolve_left hne
  have hno : NoMatch s.cfg p := fun k h1 hk => by
    rw [← List.take_append_of_le_length (l₂ := [b]) hk]
    exact hbefore k h1 (by rw [List.length_append, List.length_singleton]; omega)
  exact ⟨_, hs.runBits_firstMatch hc hno hmatch, rfl⟩

/-- Settles O46: the first match takes at least one bit, and as many as the sync word has below its
leading zeros, because after `n` bits the window is below `2^n` (`winVal_lt`); the length takes eight more. -/
theorem eventsKeepTheirDistance : Obligations.EventsKeepTheirDistance := by
  intro s u q es hc hs hrun hes
  obtain ⟨p, b, r, rfl, hmatch, hr⟩ := hs.exists_match_of_event hc hrun hes
  have hlen : (p ++ [b] ++ r).length = (p ++ [b]).length + r.length := List.length_append
  have hpos : 0 < (p ++ [b]).length := List.length_pos_of_ne_nil (List.concat_ne_nil b p)
  refine ⟨by omega, fun n hn => ?_⟩
  have hlt : 2 ^ n < 2 ^ (p ++ [b]).length := calc
    2 ^ n ≤ s.cfg.syncPattern := Nat.ge_two_pow_of_testBit hn
    _ = winVal s.cfg.w (p ++ [b]) := hmatch.symm
    _ < 2 ^ (p ++ [b]).length := winVal_lt _ _
  have hlt' := (Nat.pow_lt_pow_iff_right (by omega)).mp hlt
  omega

end Sys2Proof.Proofs
end

section
/-! SUPPORT. The exception of the length decoder: what LEN.OVF leaves and when it is selected (R124), that
only a length above `MAX_LEN` raises ALLOC_FAIL (R221), and the proofs of the statements about it. -/

namespace Sys2Proof.Machine

/-- R124: the whole next state of LEN.OVF. -/
theorem exec_lenOvf (b : Bit) (s : State) : exec (.lenOvf b) s = .next
    { s with len := s.lenField b, sr := 0, idx := 0#12, st := stSearching,
             out := some (.allocFail (s.lenField b)),
             sink := s.sink ++ [.allocFail (s.lenField b)] } := rfl

/-- R79, R124: the eighth bit of a length above `MAX_LEN` selects LEN.OVF. -/
theorem selects_lenOvf {s : State} {b : Bit} (hst : s.st = stReadingLength) (hidx : s.idx = 7#12)
    (hsr : s.sr < 2 ^ 7) (hgt : s.cfg.maxLen.toNat < s.lenShifted b) :
    Selects s (.ofBit b) (.lenOvf b) := by
  rw [← State.lenField_toNat hsr b, ← BitVec.lt_def] at hgt
  exact ⟨rfl, hst, hidx, (lenClass_eq_overflow_iff _ _).mpr hgt⟩

/-- R221: only LEN.OVF raises ALLOC_FAIL, with the length field of its bit. -/
theorem exec_allocFail {i : Instr} {s t : State} {l : Byte} (h : exec i s = .next t)
    (ho : t.out = some (.allocFail l)) : ∃ b, i = .lenOvf b ∧ s.lenField b = l := by
  rw [exec_next_iff] at h
  cases i with
  | reset | hold | srchShift b | srchSync b | lenShift b | lenOpen b | lenEmpty b => subst h; cases ho
  | lenOvf b => subst h; cases ho; exact ⟨b, rfl, rfl⟩
  | payStore b => obtain ⟨-, rfl⟩ := h; cases ho
  | payEmit b => obtain ⟨q, -, rfl⟩ := h; cases ho
  | payPass b | payDrop b => obtain ⟨q, r, -, -, rfl⟩ := h; cases ho
  | illegal => exact h.elim

/-- R124, R221: a step raises ALLOC_FAIL for a length above `MAX_LEN` only. -/
theorem step_allocFail {s t : State} {l : Byte} (h : step s = .next t)
    (ho : t.out = some (.allocFail l)) : s.cfg.maxLen < l := by
  rw [step_eq_stepIn] at h
  obtain ⟨-, i, hi, he⟩ := State.stepIn_next h
  obtain ⟨b, rfl, rfl⟩ := exec_allocFail he ho
  obtain ⟨-, -, -, hclass⟩ := hi
  exact (lenClass_eq_overflow_iff _ _).mp hclass

end Sys2Proof.Machine

/-! ### The statements -/

namespace Sys2Proof.Proofs

open Sys2Proof.Machine

/-- Settles O16: the result is that of `exec_lenOvf`, and an eighth bit that makes the length exceed the
bound selects the operation (`selects_lenOvf`). -/
theorem lenOvfRaisesAllocFail : Obligations.LenOvfRaisesAllocFail := by
  refine ⟨fun b s l hl => ?_, fun w hw => ?_, fun b s l hc hst hidx hsr hl hgt => ?_⟩
  · subst hl
    exact exec_lenOvf b s
  · exact decode_of_matches (r := ⟨0xFE#8, 0x5C#8, .lenOvf⟩) (by simp [selectorTable]) hw
  · subst hl
    rw [State.stepIn_of_selects hc (selects_lenOvf hst hidx hsr hgt), exec_lenOvf]
    rfl

/-- Settles O34: ALLOC_FAIL needs a length above the bound (`step_allocFail`), and 255 is the greatest
byte. -/
theorem defaultBoundNeverOverflows : Obligations.DefaultBoundNeverOverflows := by
  intro s t hmax h l ho
  have hgt : s.cfg.maxLen < l := step_allocFail h ho
  rw [hmax] at hgt
  exact BitVec.not_allOnes_lt hgt

end Sys2Proof.Proofs
end

section
/-! SUPPORT. The bytes of the packer, found by their place in the bit sequence (R141), and the completion
without a verdict (R183); and the proofs of the statements about them. -/

namespace Sys2Proof.Machine

/-! ### The bytes of the packer (R141) -/

/-- R141: the value of a packed byte; eight bits fit it, so the model's truncation to a byte loses
nothing. -/
theorem packByte_toNat (b7 b6 b5 b4 b3 b2 b1 b0 : Bit) :
    (packByte b7 b6 b5 b4 b3 b2 b1 b0).toNat
      = b7.toNat * 128 + b6.toNat * 64 + b5.toNat * 32 + b4.toNat * 16
        + b3.toNat * 8 + b2.toNat * 4 + b1.toNat * 2 + b0.toNat := by
  have h7 := b7.toNat_le
  have h6 := b6.toNat_le
  have h5 := b5.toNat_le
  have h4 := b4.toNat_le
  have h3 := b3.toNat_le
  have h2 := b2.toNat_le
  have h1 := b1.toNat_le
  have h0 := b0.toNat_le
  rw [packByte, BitVec.toNat_ofNat, Nat.mod_eq_of_lt (by omega)]

/-- With `k` whole bytes before them, eight bits are packed into byte `k`. -/
theorem getElem?_pack_append {p : List Bit} {k : Nat} (hp : p.length = 8 * k)
    (b7 b6 b5 b4 b3 b2 b1 b0 : Bit) (q : List Bit) :
    (pack (p ++ b7 :: b6 :: b5 :: b4 :: b3 :: b2 :: b1 :: b0 :: q))[k]?
      = some (packByte b7 b6 b5 b4 b3 b2 b1 b0) := by
  have hlen : (pack p).length = k := length_pack hp
  rw [pack_append hp, List.getElem?_append_right hlen.le, hlen, Nat.sub_self, pack_cons,
    List.getElem?_cons_zero]

/-- R141: byte `k` is packed of the bits `8k` to `8k + 7`. -/
theorem getElem?_pack {q : List Bit} {k : Nat} (h : 8 * k + 8 ≤ q.length) :
    (pack q)[k]? = some (packByte (q.getD (8 * k) false) (q.getD (8 * k + 1) false)
      (q.getD (8 * k + 2) false) (q.getD (8 * k + 3) false) (q.getD (8 * k + 4) false)
      (q.getD (8 * k + 5) false) (q.getD (8 * k + 6) false) (q.getD (8 * k + 7) false)) := by
  have hbefore : (q.take (8 * k)).length = 8 * k := List.length_take_of_le (by omega)
  obtain ⟨b7, b6, b5, b4, b3, b2, b1, b0, q', hbyte⟩ :=
    exists_eight_bits (q := q.drop (8 * k)) (by rw [List.length_drop]; omega)
  have hbit (j : Nat) : q.getD (8 * k + j) false
      = (b7 :: b6 :: b5 :: b4 :: b3 :: b2 :: b1 :: b0 :: q').getD j false := by
    rw [← hbyte, List.getD_eq_getElem?_getD, List.getD_eq_getElem?_getD, List.getElem?_drop]
  have hpack := getElem?_pack_append hbefore b7 b6 b5 b4 b3 b2 b1 b0 q'
  rw [← hbyte, List.take_append_drop] at hpack
  rw [hpack, hbit 1, hbit 2, hbit 3, hbit 4, hbit 5, hbit 6, hbit 7, ← Nat.add_zero (8 * k), hbit 0]
  rfl

/-- R141: `PACK` undoes `bits_8` applied bytewise. -/
theorem pack_bytesBits (bs : List Byte) : pack (bytesBits bs) = bs := by
  induction bs with
  | nil => rfl
  | cons x bs ih =>
    rw [bytesBits_cons, pack_append (n := 1) rfl, pack_byteBits, ih, List.singleton_append]

/-! ### The completion without a verdict (R183) -/

/-- R7: a CRC is verified only with a trailer and with the check switched on. -/
theorem verifyEn_eq_false_iff (c : Config) :
    verifyEn c = false ↔ c.hasCrc = false ∨ c.checkCrc = false :=
  Bool.and_eq_false_iff

/-- R79, R183: when nothing is to be verified, the last buffer bit selects PAY.EMIT. -/
theorem selects_payEmit {s : State} (b : Bit) (hst : s.st = stReadingPayload)
    (hlast : s.idx.toNat + 1 = nbits s.cfg s.len) (hverify : verifyEn s.cfg = false) :
    Selects s (.ofBit b) (.payEmit b) :=
  ⟨rfl, hst, hlast, State.crcClass_unverified hverify b⟩

end Sys2Proof.Machine

/-! ### The statements -/

namespace Sys2Proof.Proofs

open Sys2Proof.Machine

/-- Settles O18: the payload event is that of `CompletedBits.exec_payEmit`, and a last buffer bit that
needs no verdict selects the operation (`selects_payEmit`). -/
theorem payEmitOutputsThePayload : Obligations.PayEmitOutputsThePayload := by
  refine ⟨fun b s q e hq he => ?_, fun b s t h => ?_, fun w hw => ?_,
    fun b s hc hst hlast hunverified => ?_⟩
  · rw [hq.exec_payEmit, payloadOf, ← he]
    rfl
  · obtain ⟨q, -, rfl⟩ := execPayEmit_next h
    exact read_stored rfl
  · exact decode_of_matches (r := ⟨0xFE#8, 0x68#8, .payEmit⟩) (by simp [selectorTable]) hw
  · have hverify := (verifyEn_eq_false_iff s.cfg).mpr hunverified
    exact State.stepIn_of_selects hc (selects_payEmit b hst hlast hverify)

/-- Settles O47: byte `k` is packed of the eight bits at its place (`getElem?_pack`), whose value is that
of `packByte_toNat`. -/
theorem packIsMostSignificantBitFirst : Obligations.PackIsMostSignificantBitFirst := by
  refine ⟨fun _ _ hq => length_pack hq, fun q n k hq hk => ?_, pack_bytesBits⟩
  rw [getElem?_pack (by omega), Option.map_some, packByte_toNat]

end Sys2Proof.Proofs
end

section
/-! SUPPORT. The CRC engine as a division over GF(2): the one-bit update (R161) is linear in register and
message bit (R165), and with bit 0 of the polynomial set no flipped bit is lost in it (R167); and the
proofs of the statements about the engine. -/

namespace Sys2Proof.Machine

/-! ### The one-bit update (R161) -/

/-- R161: a shift moves each bit that stays in the register up by the shift count. -/
theorem getLsbD_shiftLeft_add (reg : Word) {i n : Nat} (h : i + n < 16) :
    (reg <<< n).getLsbD (i + n) = reg.getLsbD i := by
  simp [BitVec.getLsbD_shiftLeft, -BitVec.getLsbD_eq_getElem, h]

/-- R161 as a sum: the shifted register, and the polynomial where the old bit 15 and the message bit
differ. -/
theorem crcBit_eq (reg : Word) (d : Bit) (poly : Word) :
    crcBit reg d poly = (reg <<< 1) ^^^ if xor (reg.getLsbD 15) d then poly else 0#16 := by
  unfold crcBit
  split
  · rfl
  · rw [BitVec.xor_zero]

/-- R165: the one-bit update is linear in the register and the message bit together. -/
theorem crcBit_xor (r s : Word) (d e : Bit) (poly : Word) :
    crcBit (r ^^^ s) (xor d e) poly = crcBit r d poly ^^^ crcBit s e poly := by
  have hadd (p q : Bool) : (if xor p q then poly else 0#16)
      = (if p then poly else 0#16) ^^^ (if q then poly else 0#16) := by
    cases p <;> cases q <;> simp
  have hbits : xor ((r ^^^ s).getLsbD 15) (xor d e)
      = xor (xor (r.getLsbD 15) d) (xor (s.getLsbD 15) e) := by
    rw [BitVec.getLsbD_xor, Bool.xor_assoc, Bool.xor_assoc, Bool.xor_left_comm d]
  rw [crcBit_eq, crcBit_eq, crcBit_eq, BitVec.shiftLeft_xor_distrib, hbits, hadd]
  ac_rfl

/-- R165: a message bit that repeats the register's top bit only shifts the register. -/
theorem crcBit_top (reg poly : Word) : crcBit reg (reg.getLsbD 15) poly = reg <<< 1 := by
  simp [crcBit]

/-- R167: with polynomial 0 the update is a plain left shift. -/
theorem crcBit_zero_poly (reg : Word) (d : Bit) : crcBit reg d 0#16 = reg <<< 1 := by
  simp [crcBit]

theorem getLsbD_zero_crcBit (reg : Word) (d : Bit) {poly : Word} (hpoly : poly.getLsbD 0 = true) :
    (crcBit reg d poly).getLsbD 0 = xor (reg.getLsbD 15) d := by
  rw [crcBit_eq, BitVec.getLsbD_xor]
  cases xor (reg.getLsbD 15) d <;> simp [hpoly]

/-- R167: with bit 0 of the polynomial set the update tells two registers apart. Bit 0 of the result gives
the old bit 15 back, the bits above it the other fifteen. -/
theorem crcBit_injective (d : Bit) {poly : Word} (hpoly : poly.getLsbD 0 = true) {r s : Word}
    (h : crcBit r d poly = crcBit s d poly) : r = s := by
  have htop : r.getLsbD 15 = s.getLsbD 15 := by
    have hlow := congrArg (·.getLsbD 0) h
    simpa only [getLsbD_zero_crcBit _ _ hpoly, Bool.xor_left_inj] using hlow
  rw [crcBit_eq, crcBit_eq, htop, BitVec.xor_left_inj] at h
  refine BitVec.eq_of_getLsbD_eq fun i hi => ?_
  rcases (by omega : i = 15 ∨ i < 15) with rfl | hlt
  · exact htop
  · have hshifted := congrArg (·.getLsbD (i + 1)) h
    simpa only [getLsbD_shiftLeft_add _ (show i + 1 < 16 by omega)] using hshifted

/-- R167: and it tells the two message bits apart. -/
theorem crcBit_not_ne (reg : Word) (d : Bit) {poly : Word} (hpoly : poly.getLsbD 0 = true) :
    crcBit reg (!d) poly ≠ crcBit reg d poly := by
  intro h
  have hlow := congrArg (·.getLsbD 0) h
  simp only [getLsbD_zero_crcBit _ _ hpoly, Bool.xor_right_inj, Bool.not_eq_self] at hlow

/-! ### The update run over a bit sequence (R162, R163) -/

/-- The one-bit update run over message bits in wire order. -/
def crcBits (reg : Word) (q : List Bit) (poly : Word) : Word :=
  q.foldl (fun r d => crcBit r d poly) reg

@[simp] theorem crcBits_nil (reg poly : Word) : crcBits reg [] poly = reg := rfl

@[simp] theorem crcBits_cons (reg : Word) (d : Bit) (q : List Bit) (poly : Word) :
    crcBits reg (d :: q) poly = crcBits (crcBit reg d poly) q poly := rfl

theorem crcBits_append (reg : Word) (p q : List Bit) (poly : Word) :
    crcBits reg (p ++ q) poly = crcBits (crcBits reg p poly) q poly := List.foldl_append

/-- R162: the byte update runs over the bits of the byte, bit 7 first. -/
theorem crcByte_eq_crcBits (reg : Word) (x : Byte) (poly : Word) :
    crcByte reg x poly = crcBits reg (byteBits x) poly := rfl

theorem foldl_crcByte (msg : List Byte) (reg poly : Word) :
    msg.foldl (fun r x => crcByte r x poly) reg = crcBits reg (bytesBits msg) poly := by
  induction msg generalizing reg with
  | nil => rfl
  | cons x msg ih =>
    rw [List.foldl_cons, ih, bytesBits_cons, crcBits_append, crcByte_eq_crcBits]

/-- R163: the CRC of a message is the update run over its bits from `0xFFFF`. -/
theorem crc16_eq_crcBits (msg : List Byte) (poly : Word) :
    crc16 msg poly = crcBits crcInit (bytesBits msg) poly := foldl_crcByte msg crcInit poly

/-- R165: over sequences of one length the run is linear. -/
theorem crcBits_xor {p q : List Bit} (h : p.length = q.length) (r s poly : Word) :
    crcBits (r ^^^ s) (List.zipWith xor p q) poly = crcBits r p poly ^^^ crcBits s q poly := by
  induction p generalizing q r s with
  | nil =>
    obtain rfl := List.length_eq_zero_iff.mp h.symm
    rfl
  | cons d p ih =>
    obtain ⟨e, q, rfl⟩ := List.exists_cons_of_length_eq_add_one h.symm
    rw [List.zipWith_cons_cons, crcBits_cons, crcBits_cons, crcBits_cons, crcBit_xor,
      ih (Nat.succ.inj h)]

/-- R165: run over its own topmost bits, high bit first, the register is only shifted. -/
theorem crcBits_topBits (reg poly : Word) {n : Nat} (hn : n ≤ 16) :
    crcBits reg ((List.range n).map fun k => reg.getLsbD (15 - k)) poly = reg <<< n := by
  induction n with
  | zero => simp
  | succ n ih =>
    have htop : reg.getLsbD (15 - n) = (reg <<< n).getLsbD 15 := by
      rw [← getLsbD_shiftLeft_add reg (show 15 - n + n < 16 by omega), Nat.sub_add_cancel (by omega)]
    rw [List.range_succ, List.map_append, crcBits_append, ih (by omega), List.map_singleton,
      crcBits_cons, crcBits_nil, htop, crcBit_top, BitVec.shiftLeft_add]

/-- R165: run over its own sixteen bits the register becomes 0. -/
theorem crcBits_self (reg poly : Word) : crcBits reg (bitsOf 16 reg.toNat) poly = 0#16 := calc
  crcBits reg (bitsOf 16 reg.toNat) poly = reg <<< 16 := crcBits_topBits reg poly le_rfl
  _ = 0#16 := BitVec.shiftLeft_eq_zero le_rfl

/-- R167: with polynomial 0 the run shifts the register by the number of bits. -/
theorem crcBits_zero_poly (reg : Word) (q : List Bit) : crcBits reg q 0#16 = reg <<< q.length := by
  induction q generalizing reg with
  | nil => simp
  | cons d q ih =>
    rw [crcBits_cons, crcBit_zero_poly, ih, ← BitVec.shiftLeft_add, List.length_cons, Nat.add_comm]

/-- R167: with bit 0 of the polynomial set, registers that differ still differ after any more bits. -/
theorem crcBits_injective (q : List Bit) {poly : Word} (hpoly : poly.getLsbD 0 = true) {r s : Word}
    (h : crcBits r q poly = crcBits s q poly) : r = s := by
  induction q generalizing r s with
  | nil => exact h
  | cons d q ih => exact crcBit_injective d hpoly (ih h)

/-- R167: a flipped bit makes the registers differ at its place, and nothing after it undoes that. -/
theorem crcBits_set_not_ne {q : List Bit} {k : Nat} {d : Bit} {poly : Word}
    (hpoly : poly.getLsbD 0 = true) (hk : q[k]? = some d) (reg : Word) :
    crcBits reg (q.set k (!d)) poly ≠ crcBits reg q poly := by
  induction q generalizing k reg with
  | nil => simp at hk
  | cons e q ih =>
    cases k with
    | zero =>
      obtain rfl : e = d := by simpa using hk
      exact fun h => crcBit_not_ne reg e hpoly (crcBits_injective q hpoly h)
    | succ k => exact ih hk (crcBit reg e poly)

/-! ### Sums and flips of bytes, bit by bit (R9) -/

theorem byteBits_xor (x y : Byte) :
    byteBits (x ^^^ y) = List.zipWith xor (byteBits x) (byteBits y) := by
  simp [byteBits]

theorem bytesBits_zipWith_xor {a b : List Byte} (h : a.length = b.length) :
    bytesBits (List.zipWith (· ^^^ ·) a b) = List.zipWith xor (bytesBits a) (bytesBits b) := by
  induction a generalizing b with
  | nil => rfl
  | cons x a ih =>
    obtain ⟨y, b, rfl⟩ := List.exists_cons_of_length_eq_add_one h.symm
    have hlen : (byteBits x).length = (byteBits y).length := rfl
    rw [List.zipWith_cons_cons, bytesBits_cons, bytesBits_cons, bytesBits_cons, byteBits_xor,
      ih (Nat.succ.inj h), List.zipWith_append hlen]

theorem byteBits_flip (x : Byte) {j : Nat} (hj : j < 8) :
    byteBits (x ^^^ (1#8 <<< j)) = (byteBits x).set (7 - j) (!x.getLsbD j) := by
  interval_cases j <;> simp [byteBits]

/-- Bit `j` of byte `k` is message bit `8 * k + (7 - j)`, and a flip there changes no other. -/
theorem bytesBits_set {msg : List Byte} {k : Nat} {x : Byte} {j : Nat} (hk : msg[k]? = some x)
    (hj : j < 8) : bytesBits (msg.set k (x ^^^ (1#8 <<< j)))
      = (bytesBits msg).set (8 * k + (7 - j)) (!x.getLsbD j) := by
  induction msg generalizing k with
  | nil => simp at hk
  | cons y msg ih =>
    have hlen : (byteBits y).length = 8 := rfl
    cases k with
    | zero =>
      obtain rfl : y = x := by simpa using hk
      rw [List.set_cons_zero, bytesBits_cons, bytesBits_cons, byteBits_flip y hj,
        List.set_append_left _ _ (by omega), Nat.mul_zero, Nat.zero_add]
    | succ k =>
      rw [List.set_cons_succ, bytesBits_cons, bytesBits_cons, ih hk,
        List.set_append_right _ _ (by omega), hlen,
        show 8 * (k + 1) + (7 - j) - 8 = 8 * k + (7 - j) by omega]

end Sys2Proof.Machine

/-! ### The statements -/

namespace Sys2Proof.Proofs

open Sys2Proof.Machine

/-- Settles O48: the old bit 15 is the comparison of the register with 32768, and the shift doubles it
modulo 65536. -/
theorem crcBitUpdate : Obligations.CrcBitUpdate := by
  intro reg d poly
  have htop : reg.getLsbD 15 = decide (32768 ≤ reg.toNat) := by
    simpa [BitVec.msb_eq_getLsbD_last] using BitVec.msb_eq_decide reg
  have hshift : (reg <<< 1).toNat = (2 * reg.toNat) % 65536 := by
    rw [BitVec.toNat_shiftLeft, Nat.shiftLeft_eq, Nat.mul_comm]
  rw [← htop, ← hshift]
  by_cases h : reg.getLsbD 15 = d
  · rw [if_pos h, ← h, crcBit_top]
  · rw [if_neg h, crcBit, if_pos (by simpa using h), BitVec.toNat_xor]

/-- Settles O49: the folds over bytes and bits join (`crc16_eq_crcBits`). -/
theorem crcRunsOverTheMessageBits : Obligations.CrcRunsOverTheMessageBits := by
  refine ⟨crcByte_eq_crcBits, fun _ => rfl, fun msg x poly => ?_, crc16_eq_crcBits⟩
  rw [crc16, List.foldl_append]
  rfl

/-- Settles O50: the bits of the two bytes are those of the register they meet (`crcBits_self`). -/
theorem crcResidueIsZero : Obligations.CrcResidueIsZero := by
  rintro msg poly t rfl
  rw [crc16_eq_crcBits, bytesBits_append, bytesBits_word, crcBits_append, ← crc16_eq_crcBits,
    crcBits_self]

/-- Settles O51: the run is linear (`crcBits_xor`), and three times the start value is the start value. -/
theorem crcIsAffine : Obligations.CrcIsAffine := by
  intro a b c poly hab hbc
  have hinit : crcInit ^^^ crcInit ^^^ crcInit = crcInit := rfl
  have hsum : (List.zipWith (· ^^^ ·) a b).length = c.length := by
    rw [List.length_zipWith, hab, Nat.min_self, hbc]
  have hbits : (bytesBits a).length = (bytesBits b).length := by
    rw [length_bytesBits, length_bytesBits, hab]
  have hbits' : (bytesBits (List.zipWith (· ^^^ ·) a b)).length = (bytesBits c).length := by
    rw [length_bytesBits, length_bytesBits, hsum]
  calc crc16 a poly ^^^ crc16 b poly ^^^ crc16 c poly
      = crcBits (crcInit ^^^ crcInit) (bytesBits (List.zipWith (· ^^^ ·) a b)) poly
          ^^^ crcBits crcInit (bytesBits c) poly := by
        rw [crc16_eq_crcBits, crc16_eq_crcBits, crc16_eq_crcBits, bytesBits_zipWith_xor hab,
          crcBits_xor hbits]
    _ = crc16 (List.zipWith (· ^^^ ·) (List.zipWith (· ^^^ ·) a b) c) poly := by
        rw [← crcBits_xor hbits', ← bytesBits_zipWith_xor hsum, hinit, crc16_eq_crcBits]

/-- Settles O52: two bytes are sixteen bits, and as many shifts empty the register. -/
theorem zeroPolynomialGivesZero : Obligations.ZeroPolynomialGivesZero := by
  intro msg hmsg
  rw [crc16_eq_crcBits, crcBits_zero_poly, length_bytesBits]
  exact BitVec.shiftLeft_eq_zero (by omega)

/-- Settles O53: the flip of a byte's bit is the flip of one message bit (`bytesBits_set`). -/
theorem crcDetectsEverySingleBitFlip : Obligations.CrcDetectsEverySingleBitFlip := by
  intro msg poly k x j hpoly hk hj
  have hbit : (bytesBits msg)[8 * k + (7 - j)]? = some (x.getLsbD j) := by
    rw [getElem?_bytesBits hk (by omega), show 7 - (7 - j) = j by omega]
  rw [crc16_eq_crcBits, crc16_eq_crcBits, bytesBits_set hk hj]
  exact crcBits_set_not_ne hpoly hbit crcInit

end Sys2Proof.Proofs
end

section
/-! SUPPORT. The output arbiter: which operation outputs which kind of event (R180, R220, R221), that the
sink takes exactly the output (R257), the size of a payload (R190), and the proofs of the statements about
them. -/

namespace Sys2Proof

/-- The kind of the event that an operation outputs, if it outputs one (R180, R220, R221). -/
def Instr.eventKind : Instr → Option (BitVec 2)
  | .lenEmpty _ | .payEmit _ | .payPass _ => some 0#2
  | .payDrop _ => some 1#2
  | .lenOvf _ => some 2#2
  | .reset | .hold | .srchShift _ | .srchSync _ | .lenShift _ | .lenOpen _ | .payStore _ | .illegal => none

theorem Instr.eventKind_eq_packet {i : Instr} (h : i.eventKind = some 0#2) :
    ∃ b, i = .lenEmpty b ∨ i = .payEmit b ∨ i = .payPass b := by
  cases i <;> simp [eventKind] at h ⊢

theorem Instr.eventKind_eq_crcMismatch {i : Instr} (h : i.eventKind = some 1#2) :
    ∃ b, i = .payDrop b := by
  cases i <;> simp [eventKind] at h ⊢

theorem Instr.eventKind_eq_allocFail {i : Instr} (h : i.eventKind = some 2#2) :
    ∃ b, i = .lenOvf b := by
  cases i <;> simp [eventKind] at h ⊢

theorem Instr.eventKind_eq_none {i : Instr} (h : i.eventKind = none) :
    i = .reset ∨ i = .hold ∨ i = .illegal ∨
      ∃ b, i = .srchShift b ∨ i = .srchSync b ∨ i = .lenShift b ∨ i = .lenOpen b ∨ i = .payStore b := by
  cases i <;> simp [eventKind] at h ⊢

end Sys2Proof

namespace Sys2Proof.Machine

/-! ### The output of an operation, and the sink (R180, R225, R257) -/

section Output

variable {i : Instr} {s t : State}

/-- R180: an operation outputs an event of its kind, or none if it has no kind. -/
theorem exec_eventKind (h : exec i s = .next t) : t.out.map Event.kind = i.eventKind := by
  rw [exec_next_iff] at h
  cases i with
  | reset | hold | srchShift b | srchSync b | lenShift b | lenOpen b | lenEmpty b | lenOvf b =>
    subst h; rfl
  | payStore b => obtain ⟨-, rfl⟩ := h; rfl
  | payEmit b => obtain ⟨q, -, rfl⟩ := h; rfl
  | payPass b | payDrop b => obtain ⟨q, r, -, -, rfl⟩ := h; rfl
  | illegal => exact h.elim

/-- R257: the sink takes the event that an operation outputs, and nothing else. -/
theorem exec_sink (h : exec i s = .next t) : t.sink = s.sink ++ t.out.toList := by
  rw [exec_next_iff] at h
  cases i with
  | reset | hold | srchShift b | srchSync b | lenShift b | lenOpen b =>
    subst h; exact (List.append_nil _).symm
  | lenEmpty b | lenOvf b => subst h; rfl
  | payStore b => obtain ⟨-, rfl⟩ := h; exact (List.append_nil _).symm
  | payEmit b => obtain ⟨q, -, rfl⟩ := h; rfl
  | payPass b | payDrop b => obtain ⟨q, r, -, -, rfl⟩ := h; rfl
  | illegal => exact h.elim

/-- R181, R190: the payload of a completed buffer has `LEN` bytes, with a trailer or without. -/
theorem CompletedBits.length_payloadOf {b : Bit} {q : List Bit} (h : CompletedBits s b q) :
    (payloadOf s.cfg s.len (pack q)).length = s.len.toNat := by
  have hq := h.length
  unfold nbits at hq
  unfold payloadOf
  split at hq
  next hcrc =>
    rw [if_pos hcrc, List.length_take, length_pack (n := s.len.toNat + 2) (by omega)]
    omega
  next hcrc => rw [if_neg hcrc, length_pack hq]

/-- R190: an operation outputs a PACKET of as many payload bytes as its `len` says. -/
theorem exec_packet_length {l : Byte} {p : List Byte} (h : exec i s = .next t)
    (ho : t.out = some (.packet l p)) : p.length = l.toNat := by
  rw [exec_next_iff] at h
  cases i with
  | reset | hold | srchShift b | srchSync b | lenShift b | lenOpen b | lenOvf b => subst h; cases ho
  | lenEmpty b => subst h; cases ho; rfl
  | payStore b => obtain ⟨-, rfl⟩ := h; cases ho
  | payEmit b => obtain ⟨q, hq, rfl⟩ := h; cases ho; exact hq.length_payloadOf
  | payPass b => obtain ⟨q, r, hq, -, rfl⟩ := h; cases ho; exact hq.length_payloadOf
  | payDrop b => obtain ⟨q, r, -, -, rfl⟩ := h; cases ho
  | illegal => exact h.elim

end Output

end Sys2Proof.Machine

/-! ### The statements -/

namespace Sys2Proof.Proofs

open Sys2Proof.Machine

/-- Settles O30: the kind of the output tells the operation (`exec_eventKind`), and an event leaves its
length in `LEN` (`exec_event`). -/
theorem eventsComeOnlyFromTheirOperations : Obligations.EventsComeOnlyFromTheirOperations := by
  intro i s t h
  have hkind := exec_eventKind h
  refine ⟨fun l p ho => ?_, fun l x y ho => ?_, fun l ho => ?_, fun ho => ?_⟩
  · rw [ho] at hkind
    obtain ⟨-, hlen⟩ := exec_event h ho
    exact ⟨hlen, Instr.eventKind_eq_packet hkind.symm⟩
  · rw [ho] at hkind
    obtain ⟨-, hlen⟩ := exec_event h ho
    exact ⟨hlen, Instr.eventKind_eq_crcMismatch hkind.symm⟩
  · rw [ho] at hkind
    obtain ⟨-, hlen⟩ := exec_event h ho
    exact ⟨hlen, Instr.eventKind_eq_allocFail hkind.symm⟩
  · rw [ho] at hkind
    rcases Instr.eventKind_eq_none hkind.symm with hi | hi | rfl | hi
    · exact .inl hi
    · exact .inr (.inl hi)
    · exact ((exec_next_iff .illegal).mp h).elim
    · exact .inr (.inr hi)

/-- Settles O31: a step performs one operation, on the state with the input taken, whose sink is the
same. -/
theorem sinkTakesExactlyTheOutput : Obligations.SinkTakesExactlyTheOutput := by
  intro s t h
  obtain ⟨-, i, -, he⟩ := State.stepIn_next (step_eq_stepIn s ▸ h)
  exact exec_sink (s := s.takeInput) he

/-- Settles O32: the operation of the step outputs a payload of `LEN` bytes (`exec_packet_length`). -/
theorem packetLengthIsThePayloadSize : Obligations.PacketLengthIsThePayloadSize := by
  intro s t l p _ h ho
  obtain ⟨-, i, -, he⟩ := State.stepIn_next (step_eq_stepIn s ▸ h)
  exact exec_packet_length he ho

end Sys2Proof.Proofs
end

section
/-! SUPPORT. The run over a whole wire frame (R71, R187): the sync word, the length byte, the payload and
the trailer, up to the one event of the last bit; and the proofs of the statements about frames. -/

namespace Sys2Proof.Machine

/-! ### The windows of the sync word (R187) -/

/-- The first `k` of the `n` bits of a number are those of the number without its `n - k` lowest bits. -/
theorem take_bitsOf {n k : Nat} (v : Nat) (h : k ≤ n) :
    (bitsOf n v).take k = bitsOf k (v >>> (n - k)) := by
  rw [bitsOf, bitsOf, ← List.map_take, List.take_range, Nat.min_eq_left h]
  refine List.map_congr_left fun j hj => ?_
  rw [List.mem_range] at hj
  rw [Nat.testBit_shiftRight]
  congr 1
  omega

/-- R187: while the sync word is fed from a fresh search, the window is its upper part. -/
theorem winVal_take_syncWord {c : Config} (hc : c.legal = true) {k : Nat} (hk : k ≤ c.w) :
    winVal c.w ((bitsOf c.w c.syncPattern).take k) = c.syncPattern >>> (c.w - k) := by
  obtain ⟨-, hsync⟩ := (legal_iff c).mp hc
  have hupper : c.syncPattern >>> (c.w - k) < 2 ^ k := by
    rw [Nat.shiftRight_eq_div_pow]
    refine Nat.div_lt_of_lt_mul ?_
    rwa [← pow_add, Nat.sub_add_cancel hk]
  rw [take_bitsOf _ hk, winVal_eq, bitsVal_bitsOf, Nat.mod_eq_of_lt hupper,
    Nat.mod_eq_of_lt (hupper.trans_le (Nat.pow_le_pow_right (by omega) hk))]

theorem winVal_syncWord {c : Config} (hc : c.legal = true) :
    winVal c.w (bitsOf c.w c.syncPattern) = c.syncPattern := by
  have hwhole := winVal_take_syncWord hc le_rfl
  rwa [List.take_of_length_le (length_bitsOf _ _).le, Nat.sub_self, Nat.shiftRight_zero] at hwhole

/-- R187: a nonzero sync word is greater than each of its proper upper parts. -/
theorem noEarlyMatch_of_ne_zero {c : Config} (hc : c.legal = true) (h0 : c.syncPattern ≠ 0) :
    NoEarlyMatch c := by
  intro k _ hk
  rw [winVal_take_syncWord hc hk.le, Nat.shiftRight_eq_div_pow]
  exact (Nat.div_lt_self (by omega) (Nat.one_lt_two_pow (by omega))).ne

/-- Without an early match, the bits of the sync word before its last one match nowhere. -/
theorem NoEarlyMatch.noMatch {c : Config} (h : NoEarlyMatch c) {n : Nat} (hw : c.w = n + 1) :
    NoMatch c (bitsOf n (c.syncPattern / 2)) := by
  intro k h1 hk
  have hk' : k ≤ n := hk.trans_eq (length_bitsOf _ _)
  rw [← List.take_append_of_le_length (l₂ := [c.syncPattern.testBit 0]) hk, ← bitsOf_succ, ← hw]
  exact h k h1 (by omega)

/-- R105, R187: fed the sync word, a fresh search without an early match goes on to the length field. -/
theorem FreshSearch.runBits_syncWord {s : State} (hs : FreshSearch s) (hc : s.cfg.legal = true)
    (hno : NoEarlyMatch s.cfg) : s.runBits (bitsOf s.cfg.w s.cfg.syncPattern) = some
      ({ s with sr := 0, idx := 0#12, st := stReadingLength, out := none }, []) := by
  obtain ⟨hpos, -⟩ := (legal_iff s.cfg).mp hc
  obtain ⟨n, hw⟩ : ∃ n, s.cfg.w = n + 1 := ⟨s.cfg.w - 1, by omega⟩
  have hsplit : bitsOf s.cfg.w s.cfg.syncPattern
      = bitsOf n (s.cfg.syncPattern / 2) ++ [s.cfg.syncPattern.testBit 0] := by
    rw [hw, bitsOf_succ]
  have hmatch := winVal_syncWord hc
  rw [hsplit] at hmatch ⊢
  exact hs.runBits_firstMatch hc (hno.noMatch hw) hmatch

/-! ### Runs with one event, in the last step (R187) -/

/-- The run of the bits `q` from `s` outputs exactly the event `e`, in its last step, and ends in a fresh
search of the same configuration. -/
def RunEndsWith (s : State) (q : List Bit) (e : Event) : Prop :=
  ∃ u, s.runBits q = some (u, [e]) ∧ u.out = some e ∧ FreshSearch u ∧ u.cfg = s.cfg

/-- A step that outputs an event is such a run. -/
theorem RunEndsWith.of_stepIn {s u : State} {b : Bit} {e : Event}
    (h : s.stepIn (.ofBit b) = .next u) (ho : u.out = some e) : RunEndsWith s [b] e := by
  have hrun := State.runBits_singleton h
  rw [ho] at hrun
  obtain ⟨-, i, -, he⟩ := State.stepIn_next h
  obtain ⟨hfresh, -⟩ := exec_event he ho
  exact ⟨u, hrun, ho, hfresh, exec_cfg he⟩

/-- A run without events may come before it. -/
theorem RunEndsWith.append {s t : State} {p q : List Bit} {e : Event}
    (hp : s.runBits p = some (t, [])) (hcfg : t.cfg = s.cfg) (h : RunEndsWith t q e) :
    RunEndsWith s (p ++ q) e := by
  obtain ⟨u, hrun, ho, hfresh, hcfg'⟩ := h
  exact ⟨u, State.runBits_append hp hrun, ho, hfresh, hcfg'.trans hcfg⟩

/-! ### The payload and the trailer (R71, R181) -/

/-- The bits of a frame that the buffer takes: the payload and, if there is one, the trailer (R71). -/
def frameBody (c : Config) (payload : List Byte) (t : Word) : List Bit :=
  bytesBits payload ++ if c.hasCrc then bitsOf 16 t.toNat else []

theorem frameX_eq (c : Config) (l : Byte) (payload : List Byte) (t : Word) :
    frameX c l payload t = bitsOf c.w c.syncPattern ++ (byteBits l ++ frameBody c payload t) := by
  simp only [frameX, frameBody, List.append_assoc]

/-- The event that the last bit of a frame gives (R187): the payload when nothing is verified or the
trailer is the CRC of the length byte and the payload, else the mismatch. -/
def frameEvent (c : Config) (payload : List Byte) (t : Word) : Event :=
  if c.hasCrc = false ∨ c.checkCrc = false ∨ t = frameCrc c payload
  then .packet (BitVec.ofNat 8 payload.length) payload
  else .crcMismatch (BitVec.ofNat 8 payload.length) (frameCrc c payload) t

section Body

variable {c : Config} {l : Byte} {payload : List Byte} (hl : payload.length = l.toNat) (t : Word)

include hl

theorem ofNat_length_payload : BitVec.ofNat 8 payload.length = l := by
  rw [hl, BitVec.ofNat_toNat, BitVec.setWidth_eq]

/-- R7: with the right length byte the payload and the trailer are the bits the packet takes. -/
theorem length_frameBody : (frameBody c payload t).length = nbits c l := by
  rw [frameBody, nbits, List.length_append, length_bytesBits, hl]
  split
  · rw [length_bitsOf]
  · rfl

/-- R181: the payload among the packed bytes is that of the frame. -/
theorem payloadOf_frameBody : payloadOf c l (pack (frameBody c payload t)) = payload := by
  unfold payloadOf frameBody
  split
  · rw [pack_append (length_bytesBits payload), pack_bytesBits, List.take_left' hl]
  · rw [List.append_nil, pack_bytesBits]

end Body

/-! ### The last bit of a frame (R182 to R185) -/

section LastBit

variable {s : State} {b : Bit} {payload : List Byte} {t : Word} (hc : s.cfg.legal = true)
  (hst : s.st = stReadingPayload) (hlast : s.idx.toNat + 1 = nbits s.cfg s.len)
  (hl : payload.length = s.len.toNat) (hq : CompletedBits s b (frameBody s.cfg payload t))

include hc hst hlast hl hq

/-- R183: with nothing to verify, the last bit outputs the payload. -/
theorem RunEndsWith.of_unverified (hverify : verifyEn s.cfg = false) :
    RunEndsWith s [b] (.packet s.len payload) := by
  refine .of_stepIn ((State.stepIn_of_selects hc (selects_payEmit b hst hlast hverify)).trans
    hq.exec_payEmit) ?_
  rw [payloadOf_frameBody hl t]
  rfl

/-- R184, R185: with a trailer to verify, the last bit outputs the payload if the trailer is the CRC of the
length byte and the payload, else the mismatch. -/
theorem RunEndsWith.of_verified (hcrc : s.cfg.hasCrc = true) (hcheck : s.cfg.checkCrc = true) :
    RunEndsWith s [b] (if t = crc16 (s.len :: payload) s.cfg.crcPoly then .packet s.len payload
      else .crcMismatch s.len (crc16 (s.len :: payload) s.cfg.crcPoly) t) := by
  have hbody : frameBody s.cfg payload t = bytesBits payload ++ bitsOf 16 t.toNat := by
    rw [frameBody, if_pos hcrc]
  have hpayload := payloadOf_frameBody (c := s.cfg) hl t
  rw [hbody] at hq hpayload
  have hrecv := hq.recvOf_eq hcrc
  have hcalc := hq.calcOf_eq hcrc
  have hclass := hq.crcClass_trailer hcrc hcheck
  rw [pack_bytesBits] at hcalc hclass
  split
  next heq =>
    rw [if_pos heq.symm] at hclass
    refine .of_stepIn ((State.stepIn_of_selects (i := .payPass b) hc ⟨rfl, hst, hlast, hclass⟩).trans
      (hq.exec_payPass hrecv)) ?_
    rw [hpayload]
    rfl
  next hne =>
    rw [if_neg (Ne.symm hne)] at hclass
    refine .of_stepIn ((State.stepIn_of_selects (i := .payDrop b) hc ⟨rfl, hst, hlast, hclass⟩).trans
      (hq.exec_payDrop hrecv)) ?_
    rw [hcalc]
    rfl

/-- R187: the last bit of a frame gives its event. -/
theorem RunEndsWith.of_lastBit : RunEndsWith s [b] (frameEvent s.cfg payload t) := by
  rw [frameEvent, frameCrc, ofNat_length_payload hl]
  cases hverify : verifyEn s.cfg with
  | false =>
    have hno := (verifyEn_eq_false_iff s.cfg).mp hverify
    rw [if_pos (hno.imp_right .inl)]
    exact .of_unverified hc hst hlast hl hq hverify
  | true =>
    obtain ⟨hcrc, hcheck⟩ := Bool.and_eq_true_iff.mp hverify
    simp only [hcrc, hcheck, Bool.true_eq_false, false_or]
    exact .of_verified hc hst hlast hl hq hcrc hcheck

end LastBit

/-! ### The run over a frame (R187) -/

/-- R144, R187: fed the payload and the trailer from an opened buffer, the block outputs the frame's
event. -/
theorem RunEndsWith.of_openBuffer {s : State} {payload : List Byte} (t : Word) (hc : s.cfg.legal = true)
    (hst : s.st = stReadingPayload) (hidx : s.idx = 0#12) (hlen : s.len.toNat ≤ s.cfg.maxLen.toNat)
    (hpos : 0 < nbits s.cfg s.len) (hl : payload.length = s.len.toNat) :
    RunEndsWith s (frameBody s.cfg payload t) (frameEvent s.cfg payload t) := by
  have hbody := length_frameBody (c := s.cfg) hl t
  obtain ⟨q, b, hq⟩ := (List.eq_nil_or_concat' (frameBody s.cfg payload t)).resolve_left
    (List.ne_nil_of_length_pos (hbody ▸ hpos))
  have hlength : q.length + 1 = nbits s.cfg s.len := by
    rw [← hbody, hq, List.length_append, List.length_singleton]
  have hn := nbits_le s.cfg s.len
  have hstart : s.idx.toNat = 0 := by rw [hidx]; rfl
  have hcount : (s.idx + BitVec.ofNat 12 q.length).toNat = q.length := by
    rw [hidx, BitVec.zero_add, BitVec.toNat_ofNat, Nat.mod_eq_of_lt (by omega)]
  obtain ⟨o, hrun⟩ := State.runBits_payload q hc hst hlen (by omega)
  have hlast : (s.idx + BitVec.ofNat 12 q.length).toNat + 1 = nbits s.cfg s.len := by
    rw [hcount, hlength]
  have hdone := CompletedBits.of_writeBits (m := s.buf) (q := q) b
    (s := { s with buf := Memory.writeBits s.buf s.idx.toNat q,
                   idx := s.idx + BitVec.ofNat 12 q.length, out := o })
    (by rw [hstart]) hcount.symm hlast (nbits_le_bufCap _ _ hlen)
  rw [← hq] at hdone
  rw [hq]
  exact .append hrun rfl (.of_lastBit hc hst hlast hl hdone)

/-- R120, R187: fed the length byte, the payload and the trailer after the sync, the block outputs the
frame's event. An empty packet without a trailer ends with its length byte. -/
theorem RunEndsWith.of_readingLength {s : State} {l : Byte} {payload : List Byte} (t : Word)
    (hc : s.cfg.legal = true) (hst : s.st = stReadingLength) (hsr : s.sr = 0) (hidx : s.idx = 0#12)
    (hle : l.toNat ≤ s.cfg.maxLen.toNat) (hl : payload.length = l.toNat) :
    RunEndsWith s (byteBits l ++ frameBody s.cfg payload t) (frameEvent s.cfg payload t) := by
  obtain ⟨o, hseven⟩ := State.runBits_sevenLengthBits l hc hst hsr hidx
  rw [byteBits_eq_bitsOf, bitsOf_succ, List.append_assoc]
  refine .append hseven rfl ?_
  rcases Nat.eq_zero_or_pos (nbits s.cfg l) with h0 | hpos
  · obtain ⟨rfl, hcrc⟩ := (nbits_eq_zero_iff s.cfg l).mp h0
    obtain rfl := List.length_eq_zero_iff.mp hl
    have hempty : frameBody s.cfg [] t = [] :=
      List.length_eq_zero_iff.mp ((length_frameBody hl t).trans h0)
    rw [hempty, List.append_nil, frameEvent, if_pos (.inl hcrc)]
    exact .of_stepIn (State.stepIn_eighthBit_empty rfl hc hst rfl (lenClass_of_nbits_eq_zero hle h0)) rfl
  · have hopen := State.stepIn_eighthBit_open
      (s := { s with sr := l.toNat / 2, idx := 7#12, out := o }) rfl hc hst rfl
      ((lenClass_eq_open_iff s.cfg l).mpr ⟨hle, hpos⟩)
    exact .append (State.runBits_singleton hopen) rfl (.of_openBuffer t hc rfl rfl hle hpos hl)

/-- R187: fed a frame from a fresh search without an early match, the block outputs the frame's event. -/
theorem FreshSearch.runEndsWith_frameX {s : State} {payload : List Byte} (t : Word) (hs : FreshSearch s)
    (hc : s.cfg.legal = true) (hle : payload.length ≤ s.cfg.maxLen.toNat) (hno : NoEarlyMatch s.cfg) :
    RunEndsWith s (frameX s.cfg (BitVec.ofNat 8 payload.length) payload t)
      (frameEvent s.cfg payload t) := by
  have hl : payload.length = (BitVec.ofNat 8 payload.length).toNat := by
    rw [BitVec.toNat_ofNat, Nat.mod_eq_of_lt (hle.trans_lt s.cfg.maxLen.isLt)]
  rw [frameX_eq]
  exact .append (hs.runBits_syncWord hc hno) rfl
    (.of_readingLength (s := { s with sr := 0, idx := 0#12, st := stReadingLength, out := none })
      t hc rfl rfl rfl (hl ▸ hle) hl)

/-! ### The events of well-formed and of flipped frames (R188, R189) -/

/-- R188: the event of a well-formed frame is its payload. -/
theorem frameEvent_frameCrc (c : Config) (payload : List Byte) :
    frameEvent c payload (frameCrc c payload) = .packet (BitVec.ofNat 8 payload.length) payload :=
  if_pos (.inr (.inr rfl))

/-- R189: with bit 0 of the polynomial set, one flipped payload bit changes the CRC of the frame. -/
theorem frameCrc_flip_ne {c : Config} {payload : List Byte} {k : Nat} {x : Byte} {j : Nat}
    (hpoly : c.crcPoly.getLsbD 0 = true) (hk : payload[k]? = some x) (hj : j < 8) :
    frameCrc c (payload.set k (x ^^^ (1#8 <<< j))) ≠ frameCrc c payload := by
  rw [frameCrc, frameCrc, List.length_set, ← List.set_cons_succ]
  exact Proofs.crcDetectsEverySingleBitFlip _ _ _ x j hpoly (by rwa [List.getElem?_cons_succ]) hj

end Sys2Proof.Machine

/-! ### The statements -/

namespace Sys2Proof.Proofs

open Sys2Proof.Machine

/-- Settles O42: the run over a frame is put together from the runs over its fields
(`FreshSearch.runEndsWith_frameX`), and the windows of the sync word are its upper parts. -/
theorem aFrameGivesExactlyOneEvent : Obligations.AFrameGivesExactlyOneEvent := by
  refine ⟨fun s payload t e hc hs hle hno he => ?_, fun c k hc hk => ?_, fun c hc h0 => ?_⟩
  · subst he
    exact hs.runEndsWith_frameX t hc hle hno
  · exact winVal_take_syncWord hc hk
  · exact noEarlyMatch_of_ne_zero hc h0

/-- Settles O43: the well-formed frame carries the CRC that is computed, so its event is the payload. -/
theorem crcRoundTrip : Obligations.CrcRoundTrip := by
  intro s payload hc hs hno _ _ hle
  obtain ⟨u, hrun, -, hfresh, -⟩ := hs.runEndsWith_frameX (frameCrc s.cfg payload) hc hle hno
  rw [frameEvent_frameCrc] at hrun
  exact ⟨u, hrun, hfresh⟩

/-- Settles O44: the flip changes the CRC that is computed (`frameCrc_flip_ne`) and the trailer is kept, so
the event is the mismatch. -/
theorem aFlippedPayloadBitIsDetected : Obligations.AFlippedPayloadBitIsDetected := by
  intro s payload k x j hc hs hno hcrc hcheck hpoly hle hk hj
  have hne := frameCrc_flip_ne hpoly hk hj
  have hlength : (payload.set k (x ^^^ (1#8 <<< j))).length = payload.length := List.length_set
  obtain ⟨u, hrun, -, hfresh, -⟩ :=
    hs.runEndsWith_frameX (frameCrc s.cfg payload) hc (hlength.trans_le hle) hno
  rw [frameEvent, if_neg (by simp [hcrc, hcheck, hne.symm]), hlength] at hrun
  exact ⟨u, _, hrun, hne, hfresh⟩

end Sys2Proof.Proofs
end

section
/-! SUPPORT. The transition table of R200 and the dispatch of R201: the target of every operation, the
chain of tests that picks it, and the count of the bits to the next search (R205); and the proofs of the
statements about one step. -/

namespace Sys2Proof

/-- The target column of the transition table (R200): the `ST` that an operation leaves, performed with
`ST = st`. -/
def Instr.target (st : BitVec 2) : Instr → BitVec 2
  | .reset | .lenEmpty _ | .lenOvf _ | .payEmit _ | .payPass _ | .payDrop _ => Machine.stSearching
  | .srchSync _ => Machine.stReadingLength
  | .lenOpen _ => Machine.stReadingPayload
  | .hold | .srchShift _ | .lenShift _ | .payStore _ | .illegal => st

end Sys2Proof

namespace Sys2Proof.Machine

/-! ### The transition table (R200) -/

/-- R200: every operation leaves the `ST` of its target. -/
theorem exec_st {i : Instr} {s t : State} (h : exec i s = .next t) : t.st = i.target s.st := by
  rw [exec_next_iff] at h
  cases i with
  | reset | hold | srchShift b | srchSync b | lenShift b | lenOpen b | lenEmpty b | lenOvf b =>
    subst h; rfl
  | payStore b => obtain ⟨-, rfl⟩ := h; rfl
  | payEmit b => obtain ⟨q, -, rfl⟩ := h; rfl
  | payPass b | payDrop b => obtain ⟨q, r, -, -, rfl⟩ := h; rfl
  | illegal => exact h.elim

/-- R200, R204: the edges that the operation of a step does not take. -/
theorem Selects.edges {s : State} {inp : StepInput} {i : Instr} (hi : Selects s inp i) :
    (s.st = stSearching → i.target s.st ≠ stReadingPayload) ∧
    (s.st = stReadingPayload → i.target s.st ≠ stReadingLength) ∧
    (s.st ≠ stIllegal → i.target s.st ≠ stIllegal) := by
  cases i with
  | reset | lenEmpty b | lenOvf b | payEmit b | payPass b | payDrop b => simp [Instr.target]
  | hold | srchShift b | lenShift b | payStore b | illegal =>
    exact ⟨fun h => by simp [Instr.target, h], fun h => by simp [Instr.target, h], id⟩
  | srchSync b => obtain ⟨-, hst, -⟩ := hi; simp [Instr.target, hst]
  | lenOpen b => obtain ⟨-, hst, -⟩ := hi; simp [Instr.target, hst]

/-! ### The chain of tests (R201) -/

/-- The verdict of a completion, as the chain of R201 tests it. -/
theorem dispatch_completion {s : State} {b : Bit} {q : List Bit} (hst : s.st = stReadingPayload)
    (hlast : s.idx.toNat + 1 = nbits s.cfg s.len) (hq : CompletedBits s b q) :
    dispatch s (.ofBit b) = .ok
      (if verifyEn s.cfg then
        if recvOf s.cfg s.len (pack q) = some (calcOf s.cfg s.len (pack q))
        then .payPass b else .payDrop b
      else .payEmit b) := by
  cases hverify : verifyEn s.cfg with
  | false => simp [dispatch, StepInput.ofBit, hst, hlast, hverify]
  | true => simp [dispatch, StepInput.ofBit, hst, hlast, hverify, hq.completion, apply_ite Except.ok]

/-- R201: in a state of the invariant the chain of tests picks the operation in whose condition (R79) the
step is. -/
theorem Inv.dispatch_of_selects {s : State} {inp : StepInput} {i : Instr} (h : Inv s)
    (hi : Selects s inp i) : dispatch s inp = .ok i := by
  cases i with
  | reset => exact if_pos hi
  | hold => obtain ⟨hrst, hvld⟩ := hi; simp [dispatch, hrst, hvld]
  | srchShift b | srchSync b =>
    obtain ⟨rfl, hst, hw⟩ := hi
    simp [dispatch, StepInput.ofBit, hst, hw]
  | lenShift b =>
    obtain ⟨rfl, hst, hne⟩ := hi
    obtain ⟨hidx, -⟩ := h.readingLength hst
    have hlt : s.idx < 7#12 := by bv_omega
    simp [dispatch, StepInput.ofBit, hst, hlt]
  | lenOpen b =>
    obtain ⟨rfl, hst, h7, hclass⟩ := hi
    obtain ⟨hle, hpos⟩ := (lenClass_eq_open_iff _ _).mp hclass
    have hnot : ¬ s.cfg.maxLen < s.lenField b := by rw [BitVec.lt_def]; omega
    simp [dispatch, StepInput.ofBit, hst, h7, hnot, hpos.ne']
  | lenEmpty b =>
    obtain ⟨rfl, hst, h7, hclass⟩ := hi
    have hnot : ¬ s.cfg.maxLen < s.lenField b := fun hgt => by
      simp [(lenClass_eq_overflow_iff _ _).mpr hgt] at hclass
    simp [dispatch, StepInput.ofBit, hst, h7, hnot, nbits_eq_zero_of_lenClass hclass]
  | lenOvf b =>
    obtain ⟨rfl, hst, h7, hclass⟩ := hi
    simp [dispatch, StepInput.ofBit, hst, h7, (lenClass_eq_overflow_iff _ _).mp hclass]
  | payStore b =>
    obtain ⟨rfl, hst, hne⟩ := hi
    obtain ⟨-, -, hidx, -⟩ := h.readingPayload hst
    have hlt : s.idx.toNat + 1 < nbits s.cfg s.len := by omega
    simp [dispatch, StepInput.ofBit, hst, hlt]
  | payEmit b | payPass b | payDrop b =>
    obtain ⟨rfl, hst, hlast, hclass⟩ := hi
    obtain ⟨q, hq⟩ := h.completedBits hst hlast b
    rw [hq.crcClass_eq] at hclass
    rw [dispatch_completion hst hlast hq]
    split_ifs at hclass ⊢ <;> simp at hclass ⊢
  | illegal =>
    obtain ⟨-, -, hst⟩ := hi
    exact absurd hst h.stLegal

/-- R201, R223: in a state of the invariant a step performs the operation that the chain of tests picks,
which leaves a next state. -/
theorem Inv.stepIn_eq_dispatch {s : State} (h : Inv s) (inp : StepInput) : ∃ i t,
    dispatch s inp = .ok i ∧ s.stepIn inp = exec i s ∧ exec i s = .next t := by
  obtain ⟨i, hi⟩ := h.exists_selects inp
  obtain ⟨t, ht⟩ := h.exec_next hi
  exact ⟨i, t, h.dispatch_of_selects hi, State.stepIn_of_selects h.cfgLegal hi, ht⟩

theorem Inv.stepIn_next {s : State} (h : Inv s) (inp : StepInput) : ∃ t, s.stepIn inp = .next t := by
  obtain ⟨i, t, -, hstep, ht⟩ := h.stepIn_eq_dispatch inp
  exact ⟨t, hstep.trans ht⟩

/-! ### The steps without a bit (R202, R203) -/

theorem State.stepIn_reset {s : State} (hc : s.cfg.legal = true) (vld b : Bit) :
    s.stepIn ⟨true, vld, b⟩ = .next { s with st := stSearching, sr := 0, idx := 0#12, out := none } :=
  State.stepIn_of_selects (i := .reset) hc rfl

theorem State.stepIn_hold {s : State} (hc : s.cfg.legal = true) (b : Bit) :
    s.stepIn ⟨false, false, b⟩ = .next { s with out := none } :=
  State.stepIn_of_selects (i := .hold) hc ⟨rfl, rfl⟩

/-! ### The way back to a search (R205) -/

/-- A bound on the bits to the next search, which every one of them lowers: the length bits to come and
the longest packet after them, or the buffer bits to come. -/
def State.bitsLeft (s : State) : Nat :=
  if s.st = stReadingLength then 8 - s.idx.toNat + 2056
  else if s.st = stReadingPayload then nbits s.cfg s.len - s.idx.toNat
  else 0

theorem State.bitsLeft_searching {s : State} (h : s.st = stSearching) : s.bitsLeft = 0 := by
  simp [State.bitsLeft, h]

theorem State.bitsLeft_readingLength {s : State} (h : s.st = stReadingLength) :
    s.bitsLeft = 8 - s.idx.toNat + 2056 := by
  simp [State.bitsLeft, h]

theorem State.bitsLeft_readingPayload {s : State} (h : s.st = stReadingPayload) :
    s.bitsLeft = nbits s.cfg s.len - s.idx.toNat := by
  simp [State.bitsLeft, h]

theorem State.bitsLeft_le (s : State) : s.bitsLeft ≤ 2064 := by
  have hn := nbits_le s.cfg s.len
  unfold State.bitsLeft
  split_ifs <;> omega

/-- Outside a search some bit is to come. -/
theorem Inv.bitsLeft_pos {s : State} (h : Inv s) (hst : s.st ≠ stSearching) : 0 < s.bitsLeft := by
  rcases st_cases s.st with hs | hl | hp | hill
  · exact absurd hs hst
  · rw [State.bitsLeft_readingLength hl]
    omega
  · obtain ⟨-, -, hidx, -⟩ := h.readingPayload hp
    rw [State.bitsLeft_readingPayload hp]
    omega
  · exact absurd hill h.stLegal

/-- R205: outside a search every bit brings the next search nearer. -/
theorem Inv.bitsLeft_lt {s t : State} {b : Bit} {i : Instr} (h : Inv s) (hst : s.st ≠ stSearching)
    (hi : Selects s (.ofBit b) i) (he : exec i s = .next t) : t.bitsLeft < s.bitsLeft := by
  have hpos := h.bitsLeft_pos hst
  have htarget := exec_st he
  cases i with
  | reset => cases hi
  | hold => obtain ⟨-, hvld⟩ := hi; cases hvld
  | srchShift c | srchSync c => obtain ⟨-, hs, -⟩ := hi; exact absurd hs hst
  | lenEmpty c | lenOvf c | payEmit c | payPass c | payDrop c =>
    rw [State.bitsLeft_searching htarget]
    exact hpos
  | lenShift c =>
    obtain ⟨-, hl, -⟩ := hi
    obtain ⟨hidx, -⟩ := h.readingLength hl
    have hidx' : (s.idx + 1#12).toNat = s.idx.toNat + 1 := toNat_add_one_of_lt (by omega)
    obtain rfl := (exec_next_iff _).mp he
    rw [State.bitsLeft_readingLength (htarget.trans hl), State.bitsLeft_readingLength hl, hidx']
    omega
  | lenOpen c =>
    obtain ⟨-, hl, -⟩ := hi
    have hn := nbits_le t.cfg t.len
    obtain ⟨hidx, -⟩ := h.readingLength hl
    rw [State.bitsLeft_readingPayload htarget, State.bitsLeft_readingLength hl]
    omega
  | payStore c =>
    obtain ⟨-, hp, -⟩ := hi
    obtain ⟨-, -, hidx, -⟩ := h.readingPayload hp
    have hidx' : (s.idx + 1#12).toNat = s.idx.toNat + 1 :=
      toNat_add_one_of_lt (hidx.trans_le (nbits_le _ _))
    obtain ⟨-, rfl⟩ := (exec_next_iff _).mp he
    rw [State.bitsLeft_readingPayload (htarget.trans hp), State.bitsLeft_readingPayload hp, hidx']
    show nbits s.cfg s.len - (s.idx.toNat + 1) < nbits s.cfg s.len - s.idx.toNat
    omega
  | illegal => obtain ⟨-, -, hill⟩ := hi; exact absurd hill h.stLegal

/-- R205: a run of as many bits as are left passes through a search. -/
theorem Inv.runBits_searching {s : State} (q : List Bit) (h : Inv s) (hq : s.bitsLeft ≤ q.length) :
    ∃ k ≤ s.bitsLeft, ∃ u es, s.runBits (q.take k) = some (u, es) ∧ u.st = stSearching := by
  induction q generalizing s with
  | nil =>
    refine ⟨0, Nat.zero_le _, s, [], rfl, ?_⟩
    by_contra hst
    exact absurd (h.bitsLeft_pos hst) (by rw [List.length_nil] at hq; omega)
  | cons b q ih =>
    by_cases hst : s.st = stSearching
    · exact ⟨0, Nat.zero_le _, s, [], rfl, hst⟩
    obtain ⟨i, hi⟩ := h.exists_selects (.ofBit b)
    obtain ⟨t, ht⟩ := h.exec_next hi
    have hlt := h.bitsLeft_lt hst hi ht
    rw [List.length_cons] at hq
    obtain ⟨k, hk, u, es, hrun, hu⟩ := ih (h.of_exec hi ht) (by omega)
    have hstep : s.stepIn (.ofBit b) = .next t := (State.stepIn_of_selects h.cfgLegal hi).trans ht
    exact ⟨k + 1, by omega, u, _, State.runInputs_cons hstep hrun, hu⟩

end Sys2Proof.Machine

/-! ### The statements -/

namespace Sys2Proof.Proofs

open Sys2Proof.Machine

/-- Settles O8: the condition of R79 that a step meets is the outcome of the tests of R201
(`Inv.dispatch_of_selects`). -/
theorem stepIsTheDispatchOfTheSpec : Obligations.StepIsTheDispatchOfTheSpec := by
  intro s inp h
  obtain ⟨i, -, hdispatch, hstep, -⟩ := h.stepIn_eq_dispatch inp
  exact ⟨i, hdispatch, hstep⟩

/-- Settles O27: the operation of a step finds all it needs in a state of the invariant. -/
theorem noStepStopsUnderTheInvariant : Obligations.NoStepStopsUnderTheInvariant := by
  refine ⟨fun s h => ?_, fun _ inp h => h.stepIn_next inp⟩
  rw [step_eq_stepIn]
  exact (h.withPorts s.pending.tail s.out).stepIn_next s.nextInput

/-- Settles O28: a step goes to the target of an operation it selects (`exec_st`), along the edges of
`Selects.edges`. -/
theorem onlyTheListedEdgesAreTaken : Obligations.OnlyTheListedEdgesAreTaken := by
  intro s t h
  obtain ⟨-, i, hi, he⟩ := State.stepIn_next (step_eq_stepIn s ▸ h)
  rw [exec_st he]
  exact hi.edges

/-- Settles O37: at most 2064 bits are left to the next search, and each of them lowers the count
(`Inv.bitsLeft_lt`). -/
theorem backInSearchingWithin2064Bits : Obligations.BackInSearchingWithin2064Bits := by
  intro s q h hq
  obtain ⟨k, hk, hrun⟩ := h.runBits_searching q (s.bitsLeft_le.trans hq)
  exact ⟨k, hk.trans s.bitsLeft_le, hrun⟩

/-- Settles O9: RESET is selected by `rst` alone, in its row and in the step. -/
theorem resetGivesAFreshSearch : Obligations.ResetGivesAFreshSearch := by
  refine ⟨fun _ => rfl, fun w hw => ?_, fun _ vld b hc => State.stepIn_reset hc vld b⟩
  exact decode_of_matches (r := ⟨0x80#8, 0x80#8, fun _ => .reset⟩) (by simp [selectorTable]) hw

/-- Settles O10: HOLD is selected when nothing is presented, whatever `b` and the state are. -/
theorem holdWritesNothing : Obligations.HoldWritesNothing := by
  refine ⟨fun _ => rfl, fun w hw => ?_, fun _ b hc => State.stepIn_hold hc b⟩
  exact decode_of_matches (r := ⟨0xC0#8, 0x00#8, fun _ => .hold⟩) (by simp [selectorTable]) hw

end Sys2Proof.Proofs
end

section
/-! SUPPORT. Runs cut into calls and stretched by HOLD steps (R203, R206): a run is the sequence of its
steps, no step depends on the output of the one before it, and a run from a state of the invariant never
stops; and the proofs of the statements about streams. -/

namespace Sys2Proof.Machine

/-! ### The last output is read by nothing (R11) -/

section LastOutput

variable (s : State) (o : Option Event)

theorem State.memReadFrom_withOut (i n : Nat) :
    State.memReadFrom { s with out := o } i n = s.memReadFrom i n := by
  induction n generalizing i with
  | zero => rfl
  | succ n ih => simp only [State.memReadFrom, ih]; rfl

theorem State.completion_withOut (b : Bit) : State.completion { s with out := o } b
    = (s.completion b).map fun r => ({ r.1 with out := o }, r.2) := by
  unfold State.completion State.memWrite
  by_cases hi : s.idx.toNat < bufCap s.cfg
  · simp only [if_pos hi]
    rw [State.memReadFrom_withOut { s with buf := Memory.write s.buf s.idx.toNat b } o]
    split <;> rfl
  · simp only [if_neg hi]
    rfl

theorem State.crcClass_withOut (b : Bit) :
    State.crcClass { s with out := o } b = s.crcClass b := by
  simp only [State.crcClass, State.completion_withOut]
  cases s.completion b <;> rfl

theorem State.selector_withOut (inp : StepInput) :
    State.selector { s with out := o } inp = s.selector inp := by
  simp only [State.selector, State.predC, State.crcClass_withOut]
  rfl

theorem exec_withOut (i : Instr) : exec i { s with out := o } = exec i s := by
  cases i with
  | reset | hold | srchShift b | srchSync b | lenShift b | lenOpen b | lenEmpty b | lenOvf b
  | payStore b | illegal => rfl
  | payEmit b | payPass b | payDrop b =>
    simp only [exec, execPayEmit, execPayPass, execPayDrop, State.completion_withOut]
    cases s.completion b <;> rfl

/-- A step writes its own output, whatever the last one was. -/
theorem State.stepIn_withOut (inp : StepInput) :
    State.stepIn { s with out := o } inp = s.stepIn inp := by
  simp only [State.stepIn_eq, State.selector_withOut, exec_withOut]

end LastOutput

/-! ### Runs with HOLD steps in them (R203) -/

/-- What a run leaves, but for the output of its last step: the final registers and the events. -/
def State.observe (s : State) (ins : List StepInput) : Option (State × List Event) :=
  (s.runInputs ins).map fun r => ({ r.1 with out := none }, r.2)

/-- The run over the rest of the inputs, after a step that leaves `t`. -/
theorem State.runInputs_cons_next {s t : State} {inp : StepInput} (ins : List StepInput)
    (h : s.stepIn inp = .next t) : s.runInputs (inp :: ins)
      = (t.runInputs ins).map fun r => (r.1, t.out.toList ++ r.2) := by
  simp only [State.runInputs, h]
  cases t.runInputs ins <;> rfl

theorem State.runInputs_cons_stopped {s : State} {inp : StepInput} (ins : List StepInput)
    (h : ∀ t, s.stepIn inp ≠ .next t) : s.runInputs (inp :: ins) = none := by
  unfold State.runInputs
  split
  next t ht => exact absurd ht (h t)
  next => rfl
  next => rfl

theorem State.observe_cons_next {s t : State} {inp : StepInput} (ins : List StepInput)
    (h : s.stepIn inp = .next t) : s.observe (inp :: ins)
      = (t.observe ins).map fun r => (r.1, t.out.toList ++ r.2) := by
  rw [State.observe, State.runInputs_cons_next ins h, State.observe, Option.map_map, Option.map_map]
  rfl

theorem State.observe_withOut (s : State) (o : Option Event) (ins : List StepInput) :
    State.observe { s with out := o } ins = s.observe ins := by
  cases ins with
  | nil => rfl
  | cons inp ins => simp only [State.observe, State.runInputs, State.stepIn_withOut]

/-- A HOLD before a run is not observed. -/
theorem State.observe_hold {s : State} {inp : StepInput} (ins : List StepInput)
    (hc : s.cfg.legal = true) (hhold : inp.isHold = true) : s.observe (inp :: ins) = s.observe ins := by
  obtain ⟨rst, vld, b⟩ := inp
  obtain ⟨rfl, rfl⟩ : rst = false ∧ vld = false := by simpa [StepInput.isHold] using hhold
  rw [State.observe_cons_next ins (State.stepIn_hold hc b), State.observe_withOut]
  exact Option.map_id'

/-- R203: a run is observed as the run without its HOLD steps. -/
theorem State.observe_filter_isHold {s : State} (ins : List StepInput) (hc : s.cfg.legal = true) :
    s.observe ins = s.observe (ins.filter fun inp => !inp.isHold) := by
  induction ins generalizing s with
  | nil => rfl
  | cons inp ins ih =>
    cases hhold : inp.isHold with
    | true =>
      rw [State.observe_hold ins hc hhold, List.filter_cons_of_neg (by simp [hhold])]
      exact ih hc
    | false =>
      rw [List.filter_cons_of_pos (by simp [hhold])]
      rcases exists_or_forall_not fun t => s.stepIn inp = .next t with ⟨t, ht⟩ | hstop
      · obtain ⟨-, i, -, he⟩ := State.stepIn_next ht
        rw [State.observe_cons_next _ ht, State.observe_cons_next _ ht, ih (exec_cfg he ▸ hc)]
      · rw [State.observe, State.observe, State.runInputs_cons_stopped _ hstop,
          State.runInputs_cons_stopped _ hstop]

/-! ### Runs cut in two (R206) -/

/-- The splitting law: the second part is run from where the first ends. -/
theorem State.runInputs_append_eq (s : State) (ins ins' : List StepInput) :
    s.runInputs (ins ++ ins') = (s.runInputs ins).bind fun r =>
      (r.1.runInputs ins').map fun r' => (r'.1, r.2 ++ r'.2) := by
  induction ins generalizing s with
  | nil => exact Option.map_id'.symm
  | cons inp ins ih =>
    rcases exists_or_forall_not fun t => s.stepIn inp = .next t with ⟨t, ht⟩ | hstop
    · rw [List.cons_append, State.runInputs_cons_next _ ht, State.runInputs_cons_next _ ht, ih]
      simp only [Option.map_bind, Option.bind_map, Option.map_map, Function.comp_def, List.append_assoc]
    · rw [List.cons_append, State.runInputs_cons_stopped _ hstop, State.runInputs_cons_stopped _ hstop]
      rfl

theorem State.runBits_append_eq (s : State) (q q' : List Bit) :
    s.runBits (q ++ q') = (s.runBits q).bind fun r =>
      (r.1.runBits q').map fun r' => (r'.1, r.2 ++ r'.2) := by
  rw [State.runBits, List.map_append]
  exact s.runInputs_append_eq _ _

/-! ### Runs and calls from a state of the invariant (R206) -/

/-- What a run that outputs the events `es` leaves of `s`: the sink has taken them, the straps and the
inputs still to come are the same, and the invariant holds. -/
structure RunsTo (s : State) (es : List Event) (u : State) : Prop where
  sink : u.sink = s.sink ++ es
  cfg : u.cfg = s.cfg
  pending : u.pending = s.pending
  inv : Inv u

theorem RunsTo.refl {s : State} (h : Inv s) : RunsTo s [] s := ⟨by simp, rfl, rfl, h⟩

theorem RunsTo.trans {s t u : State} {es es' : List Event} (h : RunsTo s es t) (h' : RunsTo t es' u) :
    RunsTo s (es ++ es') u :=
  ⟨by rw [h'.sink, h.sink, List.append_assoc], h'.cfg.trans h.cfg, h'.pending.trans h.pending, h'.inv⟩

theorem RunsTo.of_stepIn {s t : State} {inp : StepInput} (h : Inv s) (he : s.stepIn inp = .next t) :
    RunsTo s t.out.toList t := by
  obtain ⟨-, i, hi, hex⟩ := State.stepIn_next he
  obtain ⟨hpending, -⟩ := exec_registers hex
  exact ⟨exec_sink hex, exec_cfg hex, hpending, h.of_exec hi hex⟩

/-- R201, R206: from a state of the invariant every run answers. -/
theorem Inv.runInputs {s : State} (ins : List StepInput) (h : Inv s) :
    ∃ u es, s.runInputs ins = some (u, es) ∧ RunsTo s es u := by
  induction ins generalizing s with
  | nil => exact ⟨s, [], rfl, .refl h⟩
  | cons inp ins ih =>
    obtain ⟨t, ht⟩ := h.stepIn_next inp
    have hto : RunsTo s t.out.toList t := .of_stepIn h ht
    obtain ⟨u, es, hrun, hto'⟩ := ih hto.inv
    exact ⟨u, _, State.runInputs_cons ht hrun, hto.trans hto'⟩

theorem State.call_of_runBits {s u : State} {q : List Bit} {es : List Event}
    (h : s.runBits q = some (u, es)) : s.call q = some (u, es, q.length) := by
  rw [State.call, h, Option.map_some]

/-- R206: the calls of a list answer, each with its bit count, and together they are the one run. -/
theorem Inv.calls {s : State} (qs : List (List Bit)) (h : Inv s) : ∃ u es,
    s.calls qs = some (u, es, qs.map List.length) ∧ s.runBits qs.flatten = some (u, es) ∧
      RunsTo s es u := by
  induction qs generalizing s with
  | nil => exact ⟨s, [], rfl, rfl, .refl h⟩
  | cons q qs ih =>
    obtain ⟨t, es, hrun, hto⟩ := h.runInputs (q.map StepInput.ofBit)
    obtain ⟨u, es', hcalls, hrun', hto'⟩ := ih hto.inv
    refine ⟨u, es ++ es', ?_, State.runBits_append hrun hrun', hto.trans hto'⟩
    rw [State.calls, State.call_of_runBits hrun]
    simp only [hcalls, Option.map_some, List.map_cons]

end Sys2Proof.Machine

/-! ### The statements -/

namespace Sys2Proof.Proofs

open Sys2Proof.Machine

/-- Settles O35, by induction on the inputs: a HOLD changes the last output only, which no step reads
(`State.stepIn_withOut`). -/
theorem holdsAreTransparent : Obligations.HoldsAreTransparent :=
  fun _ ins hc => State.observe_filter_isHold ins hc

/-- Settles O36: a call is the run over its bits, every run answers under the invariant, and runs are
appended (`State.runInputs_append_eq`). -/
theorem runsDoNotDependOnTheCut : Obligations.RunsDoNotDependOnTheCut := by
  refine ⟨fun _ _ => rfl, fun s b h => ?_, fun s qs h => ?_, State.runBits_append_eq⟩
  · obtain ⟨i, t, hdispatch, hstep, ht⟩ := h.stepIn_eq_dispatch (.ofBit b)
    exact ⟨i, t, hdispatch, ht, State.call_of_runBits (State.runBits_singleton (hstep.trans ht))⟩
  · obtain ⟨u, es, hcalls, hrun, hto⟩ := h.calls qs
    exact ⟨u, es, hcalls, State.call_of_runBits hrun, hrun, hto.sink, hto.cfg, hto.pending, hto.inv⟩

end Sys2Proof.Proofs
end


section
/-! SUPPORT. The step with an illegal configuration (R253; log entry 14), and the proof of the statement
about it. -/

namespace Sys2Proof.Machine

/-! ### The refused configuration (R253) -/

theorem State.stepIn_of_not_legal {s : State} (hc : ¬ s.cfg.legal = true) (inp : StepInput) :
    s.stepIn inp = .refused .illegalConfig := by
  rw [State.stepIn_eq, if_neg hc]

end Sys2Proof.Machine

/-! ### The statement -/

namespace Sys2Proof.Proofs

open Sys2Proof.Machine

/-- Settles O23: the legal configurations are those of `legal_iff`, and taking the input of a step keeps
the configuration, so an illegal one is refused whatever the input. -/
theorem illegalConfigurationIsRefused : Obligations.IllegalConfigurationIsRefused := by
  refine ⟨legal_iff, fun s hranges => ?_⟩
  have hc : ¬ s.takeInput.cfg.legal = true := by
    rwa [State.takeInput_cfg, legal_iff]
  rw [step_eq_stepIn]
  exact State.stepIn_of_not_legal hc s.nextInput

end Sys2Proof.Proofs
end
